-- ==== Sys2Proof/Word.lean ====
section
/-! DEFINITION. The word types of the SlcanX CAN frame codec (SLXC): line characters, hex digit values, channel
numbers. -/

namespace Sys2Proof

/-- One line character, and one payload byte: `CHAR_W` = 8 bits (R7, R10, R22). -/
abbrev Byte := BitVec 8

/-- The value of one hex digit, and a length code (R14, R85). -/
abbrev Nibble := BitVec 4

/-- A line without its terminator: a finite sequence of characters, index 0 sent and received first (R10, R50). -/
abbrev Line := List Byte

/-- The channel index delivered by the receive side, `CHAN_W` = 2 bits (R7, R26). -/
abbrev Chan := BitVec 2

/-- The channel index a caller asks for, `CHAN_REQ_W` = 4 bits (R7, R25). -/
abbrev ChanReq := BitVec 4

end Sys2Proof
end

