-- ==== Sys2Proof/Config.lean ====
section
/-! DEFINITION. What is fixed for the block: the constants of R6, the widths and capacities of R7 that are numbers of
the model, and the two parameters R8 leaves open (opaque: nothing in the model knows their values). -/

namespace Sys2Proof.Config

/-- `NCHAN` (R6): four logical channels, indices 0 to 3. -/
abbrev nchan : Nat := 4

/-- `IDW_STD` (R6): hex digits of a standard identifier field. -/
abbrev idwStd : Nat := 3

/-- `IDW_EXT` (R6): hex digits of an extended identifier field. -/
abbrev idwExt : Nat := 8

/-- `MAX_CLASSIC` (R6): the data model's bound on a classic payload; no operation checks it (R24, R164). -/
abbrev maxClassic : Nat := 8

/-- `MAX_FD` (R6): the largest data length of any frame. -/
abbrev maxFd : Nat := 64

/-- `LINE_TERM` (R6): the line terminator `CR`, in both directions. -/
abbrev lineTerm : Byte := 0x0D#8

/-- `LINE_MAX` (R7): capacity in characters of the receive line buffer. -/
abbrev lineMax : Nat := 139

/-- The largest length a `LEN_W` = 7 bit count can express (R7, R22). -/
abbrev lenMax : Nat := 127

/-- `ACCEPT_LOWER_HEX` (R8, D8): whether the decoder takes `a` to `f` as hex digits. OPEN: no value is known. -/
opaque acceptLowerHex : Bool

/-- `HAS_DROP_COUNTER` (R8, D16): whether the optional counter `DROPCNT` exists. OPEN: no value is known. -/
opaque hasDropCounter : Bool

end Sys2Proof.Config
end

