-- ==== Sys2Proof/Syntax.lean ====
section
/-! DEFINITION. The instructions of SLXC: the fifteen line types of spec/opcode_table.json (R97), one constructor each.
The eight frame line types have two operand forms, because the table gives each of them a rule of the encoder
(R123 to R130) and a rule of the decoder (R152 to R159). -/

namespace Sys2Proof

/-- A frame value (R21, R22). `data` is a list of exactly `len` bytes, the form R23 recommends, so `len` is no field of
its own and no byte beyond `len` exists. -/
structure Frame where
  id   : BitVec 32
  data : List Byte
  dlc  : BitVec 7
  ext  : Bool
  rtr  : Bool
  fd   : Bool
  brs  : Bool
deriving DecidableEq, Repr

/-- `len` = `|data|` (R22, R23). -/
def Frame.len (f : Frame) : Nat := f.data.length

/-- An encode request, the pair `(ENC.CH, ENC.F)` (R25). -/
structure Request where
  ch    : ChanReq
  frame : Frame
deriving DecidableEq, Repr

/-- The operands of a received line: its channel digit, if it has one, and every character after its letter. -/
structure RxLine where
  digit : Option Chan
  body  : Line
deriving DecidableEq, Repr

/-- The two operand forms of a frame line type. -/
inductive FrameOp where
  /-- ENC forms a line of this type from a channel index and a frame (R120). -/
  | encode (ch : ChanReq) (f : Frame)
  /-- DEC reads a received line of this type (R150). -/
  | decode (l : RxLine)
deriving DecidableEq, Repr

/-- One constructor per row of spec/opcode_table.json, named by the row's own words; the row's letter stands beside it. -/
inductive Instr where
  /-- `t`: classic data frame, standard identifier. -/
  | classicStd (op : FrameOp)
  /-- `T`: classic data frame, extended identifier. -/
  | classicExt (op : FrameOp)
  /-- `r`: classic remote frame, standard identifier. -/
  | remoteStd (op : FrameOp)
  /-- `R`: classic remote frame, extended identifier. -/
  | remoteExt (op : FrameOp)
  /-- `d`: FD frame without bit-rate switch, standard identifier. -/
  | fdStd (op : FrameOp)
  /-- `D`: FD frame without bit-rate switch, extended identifier. -/
  | fdExt (op : FrameOp)
  /-- `b`: FD frame with bit-rate switch, standard identifier. -/
  | fdBrsStd (op : FrameOp)
  /-- `B`: FD frame with bit-rate switch, extended identifier. -/
  | fdBrsExt (op : FrameOp)
  /-- `O`: open channel. -/
  | openChannel (l : RxLine)
  /-- `C`: close channel. -/
  | closeChannel (l : RxLine)
  /-- `S`: set predefined nominal bit-rate. -/
  | setRate (l : RxLine)
  /-- `y`: set custom numeric nominal bit-rate. -/
  | setBitrate (l : RxLine)
  /-- `Y`: set predefined FD data-phase rate. -/
  | setFdRate (l : RxLine)
  /-- `a`: set custom nominal timing literal. -/
  | nominalTiming (l : RxLine)
  /-- `A`: set custom data-phase timing literal. -/
  | dataTiming (l : RxLine)
deriving DecidableEq, Repr

end Sys2Proof
end

