-- ==== Sys2Proof/WellFormed.lean ====
section
/-! DEFINITION. Which terms of Instr stand for something that can occur: a request whose flags belong to the row's
letter, a received line that LA can hold. -/

namespace Sys2Proof

/-- The operands R123 to R130 name for an encode: the identifier flag and the `fd` flag of the row, and of `brs` and
`rtr` the one the letter consults (R83); `len` expressible in `LEN_W` = 7 bits (R22). -/
def Frame.fitsRow (f : Frame) (ext fd brs rtr : Bool) : Bool :=
  f.ext == ext && f.fd == fd && (if fd then f.brs == brs else f.rtr == rtr) && decide (f.len ≤ Config.lenMax)

/-- A received line as LA can complete it (R10, R27, R58): at most `LINE_MAX` characters, no terminator among them. -/
def RxLine.fits (l : RxLine) : Bool :=
  decide ((if l.digit.isSome then 1 else 0) + 1 + l.body.length ≤ Config.lineMax)
    && l.body.all (fun c => c != Config.lineTerm)

/-- Well-formedness of a frame row's operand. -/
def FrameOp.wellFormed (op : FrameOp) (ext fd brs rtr : Bool) : Bool :=
  match op with
  | .encode _ f => f.fitsRow ext fd brs rtr
  | .decode l   => l.fits

/-- Well-formedness of an instruction. The four flags beside each frame row are R82's. -/
def Instr.wellFormed (i : Instr) : Bool :=
  match i with
  | .classicStd op   => op.wellFormed false false false false
  | .classicExt op   => op.wellFormed true  false false false
  | .remoteStd op    => op.wellFormed false false false true
  | .remoteExt op    => op.wellFormed true  false false true
  | .fdStd op        => op.wellFormed false true  false false
  | .fdExt op        => op.wellFormed true  true  false false
  | .fdBrsStd op     => op.wellFormed false true  true  false
  | .fdBrsExt op     => op.wellFormed true  true  true  false
  | .openChannel l   => l.fits
  | .closeChannel l  => l.fits
  | .setRate l       => l.fits
  | .setBitrate l    => l.fits
  | .setFdRate l     => l.fits
  | .nominalTiming l => l.fits
  | .dataTiming l    => l.fits

end Sys2Proof
end

