-- ==== Sys2Proof/Decode.lean ====
section
/-! DEFINITION. From what arrives at the block to an instruction and back: the dispatcher's channel digit (R190), the
table of first letters (R82, R84, R97), the letter selection of an encode request (R83), the decoder of complete lines
and of requests, total on any input, and the encoder written from the same tables. -/

namespace Sys2Proof

/-! ### Letters (R82, R84; the codes are the spec's general knowledge, G1) -/

namespace Letter
abbrev t : Byte := 0x74#8
abbrev T : Byte := 0x54#8
abbrev r : Byte := 0x72#8
abbrev R : Byte := 0x52#8
abbrev d : Byte := 0x64#8
abbrev D : Byte := 0x44#8
abbrev b : Byte := 0x62#8
abbrev B : Byte := 0x42#8
abbrev O : Byte := 0x4F#8
abbrev C : Byte := 0x43#8
abbrev S : Byte := 0x53#8
abbrev y : Byte := 0x79#8
abbrev Y : Byte := 0x59#8
abbrev a : Byte := 0x61#8
abbrev A : Byte := 0x41#8
end Letter

/-! ### The dispatcher (R190) -/

/-- The character of a channel digit, `0x30 + ch` (R93). -/
def digitChar (ch : Chan) : Byte := 0x30#8 + ch.setWidth 8

/-- The channel digit at index 0, if there is one, and what is left of the line: at most one character is examined and
at most one removed (R190, R191). -/
def splitDigit (l : Line) : Option Chan × Line :=
  match l with
  | [] => (none, [])
  | c :: cs => if 0x30#8 ≤ c ∧ c ≤ 0x33#8 then (some ((c - 0x30#8).setWidth 2), cs) else (none, c :: cs)

/-- `DISPATCH` (R190): the channel is the digit's, or 0 for a line without one (R194). -/
def dispatch (l : Line) : Chan × Line := ((splitDigit l).1.getD 0#2, (splitDigit l).2)

/-- The channel a received line is routed to (R190). -/
def RxLine.chan (l : RxLine) : Chan := l.digit.getD 0#2

/-! ### The table of first letters -/

/-- One row of spec/opcode_table.json: it matches a first character `c` of the remainder when `c &&& mask = pattern`
(R97). -/
structure OpRow where
  mask    : Byte
  pattern : Byte
  build   : RxLine → Instr

/-- The eight frame rows of the table (R82). -/
def frameOpRows : List OpRow :=
  [ ⟨0xFF#8, Letter.t, fun l => .classicStd (.decode l)⟩,
    ⟨0xFF#8, Letter.T, fun l => .classicExt (.decode l)⟩,
    ⟨0xFF#8, Letter.r, fun l => .remoteStd (.decode l)⟩,
    ⟨0xFF#8, Letter.R, fun l => .remoteExt (.decode l)⟩,
    ⟨0xFF#8, Letter.d, fun l => .fdStd (.decode l)⟩,
    ⟨0xFF#8, Letter.D, fun l => .fdExt (.decode l)⟩,
    ⟨0xFF#8, Letter.b, fun l => .fdBrsStd (.decode l)⟩,
    ⟨0xFF#8, Letter.B, fun l => .fdBrsExt (.decode l)⟩ ]

/-- The seven configuration rows of the table (R212 to R218). -/
def configOpRows : List OpRow :=
  [ ⟨0xFF#8, Letter.O, fun l => .openChannel l⟩,
    ⟨0xFF#8, Letter.C, fun l => .closeChannel l⟩,
    ⟨0xFF#8, Letter.S, fun l => .setRate l⟩,
    ⟨0xFF#8, Letter.y, fun l => .setBitrate l⟩,
    ⟨0xFF#8, Letter.Y, fun l => .setFdRate l⟩,
    ⟨0xFF#8, Letter.a, fun l => .nominalTiming l⟩,
    ⟨0xFF#8, Letter.A, fun l => .dataTiming l⟩ ]

/-- The whole table. -/
def opTable : List OpRow := frameOpRows ++ configOpRows

/-- The table's row for a first character, if it has one. -/
def lookup (c : Byte) : Option OpRow := opTable.find? (fun r => c &&& r.mask == r.pattern)

/-! ### The decoder -/

/-- Why a complete line is no instruction. Both are answered by the block with `NoFrame(NOT_FRAME)` (R94, R193): the
machine goes on. -/
inductive Reject where
  /-- Nothing is left of the line after Dispatch (R193). -/
  | emptyRemainder
  /-- The remainder's first character matches no row (R94, R219). -/
  | noRow (c : Byte)
deriving DecidableEq, Repr

/-- What an instruction is read from: a complete received line, or an encode request, which crosses the interface whole,
as a value, and has no characters (D1). -/
inductive Words where
  | line (l : Line)
  | request (q : Request)
deriving DecidableEq, Repr

/-- The instruction a complete line is: Dispatch, then the remainder's first character decides everything (R94). -/
def decodeLine (l : Line) : Except Reject Instr :=
  match (splitDigit l).2 with
  | [] => .error .emptyRemainder
  | c :: body =>
    match lookup c with
    | some row => .ok (row.build ⟨(splitDigit l).1, body⟩)
    | none     => .error (.noRow c)

/-- The line type a request selects, for every one of the sixteen flag combinations (R83): `fd` is tested first, `rtr` is
not consulted when `fd` = 1 and `brs` is not consulted when `fd` = 0. -/
def selectInstr (q : Request) : Instr :=
  if q.frame.fd then
    if q.frame.brs then
      if q.frame.ext then .fdBrsExt (.encode q.ch q.frame) else .fdBrsStd (.encode q.ch q.frame)
    else
      if q.frame.ext then .fdExt (.encode q.ch q.frame) else .fdStd (.encode q.ch q.frame)
  else
    if q.frame.rtr then
      if q.frame.ext then .remoteExt (.encode q.ch q.frame) else .remoteStd (.encode q.ch q.frame)
    else
      if q.frame.ext then .classicExt (.encode q.ch q.frame) else .classicStd (.encode q.ch q.frame)

/-- The decoder. -/
def decode (w : Words) : Except Reject Instr :=
  match w with
  | .line l    => decodeLine l
  | .request q => .ok (selectInstr q)

/-! ### The encoder -/

/-- The letter of an instruction's line type (R82, R212 to R218). -/
def Instr.letter (i : Instr) : Byte :=
  match i with
  | .classicStd _    => Letter.t
  | .classicExt _    => Letter.T
  | .remoteStd _     => Letter.r
  | .remoteExt _     => Letter.R
  | .fdStd _         => Letter.d
  | .fdExt _         => Letter.D
  | .fdBrsStd _      => Letter.b
  | .fdBrsExt _      => Letter.B
  | .openChannel _   => Letter.O
  | .closeChannel _  => Letter.C
  | .setRate _       => Letter.S
  | .setBitrate _    => Letter.y
  | .setFdRate _     => Letter.Y
  | .nominalTiming _ => Letter.a
  | .dataTiming _    => Letter.A

/-- The characters of a line: the channel digit if there is one, the letter, the rest (R80, R81, R210). -/
def lineChars (letter : Byte) (l : RxLine) : Line :=
  match l.digit with
  | some ch => digitChar ch :: letter :: l.body
  | none    => letter :: l.body

/-- The words of a frame row's operand form. -/
def frameWords (letter : Byte) (op : FrameOp) : Words :=
  match op with
  | .encode ch f => .request ⟨ch, f⟩
  | .decode l    => .line (lineChars letter l)

/-- The encoder: the words of an instruction. -/
def encode (i : Instr) : Words :=
  match i with
  | .classicStd op   => frameWords Letter.t op
  | .classicExt op   => frameWords Letter.T op
  | .remoteStd op    => frameWords Letter.r op
  | .remoteExt op    => frameWords Letter.R op
  | .fdStd op        => frameWords Letter.d op
  | .fdExt op        => frameWords Letter.D op
  | .fdBrsStd op     => frameWords Letter.b op
  | .fdBrsExt op     => frameWords Letter.B op
  | .openChannel l   => .line (lineChars Letter.O l)
  | .closeChannel l  => .line (lineChars Letter.C l)
  | .setRate l       => .line (lineChars Letter.S l)
  | .setBitrate l    => .line (lineChars Letter.y l)
  | .setFdRate l     => .line (lineChars Letter.Y l)
  | .nominalTiming l => .line (lineChars Letter.a l)
  | .dataTiming l    => .line (lineChars Letter.A l)

/-! ### The table's words -/

/-- The longest remainder the decoder looks at, in characters (R59). -/
def longestRemainder : Nat := 138

/-- The characters of a table word: `nbits / 8` of them, the least significant byte first, then zeros up to the longest
remainder. -/
def tableLine (nbits w : Nat) : Line :=
  (List.range (nbits / 8)).map (fun k => BitVec.ofNat 8 (w >>> (8 * k)))
    ++ List.replicate (longestRemainder - nbits / 8) 0#8

/-- The instruction the decoder reads from a table word: the line whose first character, index `q` = 0 of the
de-prefixed line, is the word's least significant byte (R97). -/
def decodeTableWord (nbits w : Nat) : Option Instr :=
  match decodeLine (tableLine nbits w) with
  | .ok i    => some i
  | .error _ => none

end Sys2Proof
end

