-- ==== Sys2Proof/Machine/State.lean ====
section
/-! DEFINITION. The state of SLXC, the reasons a step could stop (none that the spec gives), and the state after reset. -/

namespace Sys2Proof.Machine

/-- Why a decode ends in "no frame" (R231). A drop is no stop: the machine goes on (R238). -/
inductive DropCause where
  | notFrame | idTrunc | idHex | lcTrunc | lcHex | plTrunc | plHex
deriving DecidableEq, Repr

/-- Why a request is refused (R232). It is an outcome of ENC, no stop: the machine goes on (R238). -/
inductive EncError where
  | chanRange | lenRange
deriving DecidableEq, Repr

/-- One `FrameReceived(ch, F)` item, the registers `DEC.CH` and `DEC.F`, which are valid only in the event (R26, R235). -/
structure Event where
  ch    : Chan
  frame : Frame
deriving DecidableEq, Repr

/-- Who acts next. The spec's two agents step independently (R20) and the order in which they and the environment act is
the environment's choice (R35, R64), so it is input, held as data. -/
inductive Move where
  /-- The receive pipeline LA, DP, DEC takes one character, unless an event is pending (R58, R236). -/
  | receive
  /-- ENC accepts one request (R25, R63). -/
  | encode
  /-- The caller takes the pending `FrameReceived` event (R65). -/
  | takeEvent
  /-- The line-side consumer takes the oldest emitted line (R20, R273). -/
  | takeLine
  /-- The reset input is applied (R270). -/
  | reset
deriving DecidableEq, Repr

/-- The machine. The first three fields are inputs not yet consumed; the next three are the block's data state; the
others are its output ports. -/
structure State where
  /-- The moves to come, next one first (R35, R64). -/
  sched         : List Move
  /-- Characters not yet taken by LA, earliest first (R65: consumed at the block's own pace). -/
  rxIn          : List Byte
  /-- Requests `(ENC.CH, ENC.F)` not yet accepted by ENC, in their order of acceptance (R25, R63). -/
  encIn         : List Request
  /-- `RXBUF`: the characters of the current line received so far (R27). -/
  rxbuf         : Line
  /-- `RXLEN`: the write index into `RXBUF`, 8 bits (R27, R29). -/
  rxlen         : BitVec 8
  /-- `DROPCNT`: the optional drop counter (R31). -/
  dropcnt       : BitVec 32
  /-- `dec_cause`: the cause code of the line the last receive move completed, none if it completed none (R26, R30:
  not latched). -/
  decCause      : Option (BitVec 3)
  /-- The `FrameReceived` output: items emitted and not yet taken, oldest first (R11, R235). -/
  frameReceived : List Event
  /-- `enc_line`: lines emitted and not yet taken, oldest first (R11, R25). -/
  encLine       : List Line
  /-- `enc_err`: the code of the request the last encode move processed, none if it processed none (R25, R30: not
  latched). -/
  encErr        : Option (BitVec 2)
deriving DecidableEq, Repr

/-- The reasons the machine could stop with a fault: none. "There is no fault that stops the block, no stuck state inside
an operation and no undefined result" (R12). -/
inductive Fault where
deriving DecidableEq, Repr

/-- The reasons an instruction could be refused. -/
inductive Refusal where
  /-- Raised by nothing: every arm of exec has its meaning. It would be safe (the model stops where the hardware goes
  on). -/
  | notModelled (mnemonic : String)
deriving DecidableEq, Repr

/-- The machine right after reset, with nothing presented to it (R36, R270). -/
def State.reset : State :=
  { sched         := []
    rxIn          := []
    encIn         := []
    rxbuf         := []
    rxlen         := 0#8
    dropcnt       := 0#32
    decCause      := none
    frameReceived := []
    encLine       := []
    encErr        := none }

end Sys2Proof.Machine
end

