-- ==== Sys2Proof/Machine/Ops.lean ====
section
/-! DEFINITION. The named operations over the line space and the state: reading and writing a line by character index,
the line assembler's two actions, the two kinds of emission, the drop and the encoder error (what SLXC has in the place
of exceptions), the environment's taking of items, and reset. Each operation that changes the state is one record
update. -/

namespace Sys2Proof.Machine

/-! ### The line space (R11, R33) -/

/-- `MemRead(buf, a, n)`: `n` characters from index `a`, defined only when they exist (R11). -/
def memRead (buf : Line) (a n : Nat) : Option Line :=
  if a + n ≤ buf.length then some ((buf.drop a).take n) else none

/-- `MemWrite(buf, a, |v|, v)` (R11). -/
def memWrite (buf : Line) (a : Nat) (v : Line) : Line := buf.take a ++ v ++ buf.drop (a + v.length)

/-- `Append(buf, v)`: MemWrite at index `|buf|` (R11). -/
def append (buf v : Line) : Line := memWrite buf buf.length v

/-- The canonical form of the receive line buffer: `RXLEN` is its length, it holds at most `LINE_MAX` characters, and no
terminator (R10, R27, R58). -/
def Memory.wf (s : State) : Bool :=
  s.rxlen.toNat == s.rxbuf.length && decide (s.rxbuf.length ≤ Config.lineMax)
    && s.rxbuf.all (fun c => c != Config.lineTerm)

/-! ### Consuming inputs -/

/-- The schedule goes on with `ms`. -/
def setSched (ms : List Move) (s : State) : State := { s with sched := ms }

/-- LA takes a character: the stream goes on with `cs` (R65). -/
def setRxIn (cs : List Byte) (s : State) : State := { s with rxIn := cs }

/-- ENC accepts a request: `qs` are left (R63). -/
def setEncIn (qs : List Request) (s : State) : State := { s with encIn := qs }

/-! ### LA, the line assembler -/

/-- Whether `RXBUF` has room for a character (R58). -/
def hasRoom (s : State) : Bool := decide (s.rxlen.toNat < Config.lineMax)

/-- A character other than the terminator: appended while there is room, else discarded (R58, R59). -/
def storeChar (c : Byte) (s : State) : State :=
  { s with
    rxbuf := if hasRoom s then append s.rxbuf [c] else s.rxbuf
    rxlen := if hasRoom s then s.rxlen + 1#8 else s.rxlen }

/-- After the terminator the buffer is empty (R58). -/
def clearLine (s : State) : State := { s with rxbuf := [], rxlen := 0#8 }

/-- A receive move that completed no line: `dec_cause` carries nothing (R30). -/
def noCause (s : State) : State := { s with decCause := none }

/-! ### DEC's outcomes -/

/-- The cause codes (R231). -/
def DropCause.code (c : DropCause) : BitVec 3 :=
  match c with
  | .notFrame => 1#3
  | .idTrunc  => 2#3
  | .idHex    => 3#3
  | .lcTrunc  => 4#3
  | .lcHex    => 5#3
  | .plTrunc  => 6#3
  | .plHex    => 7#3

/-- `DROPCNT` after a drop: one more, modulo 2^32, on the codes 2 to 7 if the counter exists (R31, R195). -/
def countDrop (c : DropCause) (n : BitVec 32) : BitVec 32 :=
  if decide (2#3 ≤ c.code) && Config.hasDropCounter then n + 1#32 else n

/-- The drop, whole (R238): `dec_cause` is set and the counter counts; nothing is emitted, `DEC.CH` and `DEC.F` are not
written, no mode changes and control goes nowhere, so there is no return from it (R239). -/
def recordDrop (c : DropCause) (s : State) : State :=
  { s with decCause := some c.code, dropcnt := countDrop c s.dropcnt }

/-- The `DROPCNT` output, read-only: the counter where it exists, nothing where it does not (R31). -/
def dropcntOut (s : State) : Option (BitVec 32) := if Config.hasDropCounter then some s.dropcnt else none

/-- A decoded frame (R195): `dec_cause` is 0 and one `FrameReceived(ch, F)` is emitted. -/
def deliver (ch : Chan) (f : Frame) (s : State) : State :=
  { s with decCause := some 0#3, frameReceived := s.frameReceived ++ [⟨ch, f⟩] }

/-! ### ENC's outcomes -/

/-- The encoder error codes (R232). -/
def EncError.code (e : EncError) : BitVec 2 :=
  match e with
  | .chanRange => 1#2
  | .lenRange  => 2#2

/-- The encoder error, whole (R238): `enc_err` is set and `enc_line` is not written. -/
def recordError (e : EncError) (s : State) : State := { s with encErr := some e.code }

/-- An encoded line (R121, R232): it is emitted and `enc_err` is 0. -/
def emitLine (l : Line) (s : State) : State := { s with encErr := some 0#2, encLine := s.encLine ++ [l] }

/-- An encode move that processed no request: `enc_err` carries nothing (R30). -/
def noError (s : State) : State := { s with encErr := none }

/-! ### The environment -/

/-- The caller takes the oldest pending event (R65, R235). -/
def takeEvent (s : State) : State := { s with frameReceived := s.frameReceived.tail }

/-- The line-side consumer takes the oldest emitted line (R273). -/
def takeLine (s : State) : State := { s with encLine := s.encLine.tail }

/-- The reset operation (R270). What the environment has yet to present is not the block's and stays. -/
def applyReset (s : State) : State :=
  { State.reset with sched := s.sched, rxIn := s.rxIn, encIn := s.encIn }

/-- The wire image of emitted lines: each followed by the terminator, which the environment adds (R61). -/
def wire (ls : List Line) : List Byte := ls.flatMap (fun l => l ++ [Config.lineTerm])

end Sys2Proof.Machine
end

