-- ==== Sys2Proof/Machine/ConfigLines.lean ====
section
/-! DEFINITION. The seven configuration line types (R210 to R219). SLXC does not form them; a received one is "not a
frame": no event, no counter change (R211). Channel and argument play no part (R28, R240). -/

namespace Sys2Proof.Machine

/-- What DEC does with any configuration line (R211). -/
def notAFrame (s : State) : Host.Outcome State Fault Refusal := .next (recordDrop .notFrame s)

/-- `O` (R212). -/
def execOpenChannel (_l : RxLine) (s : State) : Host.Outcome State Fault Refusal := notAFrame s

/-- `C` (R213). -/
def execCloseChannel (_l : RxLine) (s : State) : Host.Outcome State Fault Refusal := notAFrame s

/-- `S` (R214). -/
def execSetRate (_l : RxLine) (s : State) : Host.Outcome State Fault Refusal := notAFrame s

/-- `y` (R215). -/
def execSetBitrate (_l : RxLine) (s : State) : Host.Outcome State Fault Refusal := notAFrame s

/-- `Y` (R216). -/
def execSetFdRate (_l : RxLine) (s : State) : Host.Outcome State Fault Refusal := notAFrame s

/-- `a` (R217). -/
def execNominalTiming (_l : RxLine) (s : State) : Host.Outcome State Fault Refusal := notAFrame s

/-- `A` (R218). -/
def execDataTiming (_l : RxLine) (s : State) : Host.Outcome State Fault Refusal := notAFrame s

end Sys2Proof.Machine
end

