-- ==== Sys2Proof/Machine/Flags.lean ====
section
/-! DEFINITION. The flags: SLXC has no condition codes (R30); its flags are the four frame flags, and what they are is
the letter map of R82, one row per frame letter, read by Encode and written by Decode. -/

namespace Sys2Proof.Machine

/-- One row of the letter map (R82). -/
structure FrameRow where
  letter : Byte
  ext    : Bool
  fd     : Bool
  brs    : Bool
  rtr    : Bool
deriving DecidableEq, Repr

/-- `t` (R82). -/
def rowClassicStd : FrameRow := ⟨Letter.t, false, false, false, false⟩
/-- `T` (R82). -/
def rowClassicExt : FrameRow := ⟨Letter.T, true,  false, false, false⟩
/-- `r` (R82). -/
def rowRemoteStd  : FrameRow := ⟨Letter.r, false, false, false, true⟩
/-- `R` (R82). -/
def rowRemoteExt  : FrameRow := ⟨Letter.R, true,  false, false, true⟩
/-- `d` (R82). -/
def rowFdStd      : FrameRow := ⟨Letter.d, false, true,  false, false⟩
/-- `D` (R82). -/
def rowFdExt      : FrameRow := ⟨Letter.D, true,  true,  false, false⟩
/-- `b` (R82). -/
def rowFdBrsStd   : FrameRow := ⟨Letter.b, false, true,  true,  false⟩
/-- `B` (R82). -/
def rowFdBrsExt   : FrameRow := ⟨Letter.B, true,  true,  true,  false⟩

/-- `W`, the identifier width in hex digits (R87, R88). -/
def FrameRow.idWidth (row : FrameRow) : Nat := if row.ext then Config.idwExt else Config.idwStd

/-- The frame Decode delivers: every field written, the flags as the row has them, `id` zero-extended to 32 bits, `dlc`
the table value of the length code (R151, R165). -/
def FrameRow.frame (row : FrameRow) (id : Nat) (data : List Byte) (dlc : Nat) : Frame :=
  { id := BitVec.ofNat 32 id, data := data, dlc := BitVec.ofNat 7 dlc,
    ext := row.ext, rtr := row.rtr, fd := row.fd, brs := row.brs }

end Sys2Proof.Machine
end

