-- ==== Sys2Proof/Machine/Operands.lean ====
section
/-! DEFINITION. The operand forms: the hex conversions, the two length-code tables, the identifier field and the payload
field, each as Encode fills it and as Decode reads it. -/

namespace Sys2Proof.Machine

/-! ### Hex digits -/

/-- `hc(v)`: the hex digit of a 4-bit value, upper-case only (R85). -/
def hc (v : Nibble) : Byte :=
  if v ≤ 9#4 then 0x30#8 + v.setWidth 8 else 0x41#8 + v.setWidth 8 - 10#8

/-- `hv(c)`: the value of a hex character, none where the character is invalid (R86). `lower` is
`ACCEPT_LOWER_HEX`. -/
def hv (lower : Bool) (c : Byte) : Option Nibble :=
  if 0x30#8 ≤ c ∧ c ≤ 0x39#8 then some ((c - 0x30#8).setWidth 4)
  else if 0x41#8 ≤ c ∧ c ≤ 0x46#8 then some ((c - 0x41#8 + 10#8).setWidth 4)
  else if 0x61#8 ≤ c ∧ c ≤ 0x66#8 then
    if lower then some ((c - 0x61#8 + 10#8).setWidth 4) else none
  else none

/-! ### Length codes -/

/-- `L2C(n)`: length to length code, defined for 0 to 64 and not above (R89). -/
def l2c? (n : Nat) : Option Nibble :=
  if n ≤ 8 then some (BitVec.ofNat 4 n)
  else if n ≤ 12 then some 9#4
  else if n ≤ 16 then some 10#4
  else if n ≤ 20 then some 11#4
  else if n ≤ 24 then some 12#4
  else if n ≤ 32 then some 13#4
  else if n ≤ 48 then some 14#4
  else if n ≤ Config.maxFd then some 15#4
  else none

/-- `C2L(c)`: length code to length (R90). -/
def c2l (c : Nibble) : Nat :=
  if c ≤ 8#4 then c.toNat
  else if c = 9#4 then 12
  else if c = 10#4 then 16
  else if c = 11#4 then 20
  else if c = 12#4 then 24
  else if c = 13#4 then 32
  else if c = 14#4 then 48
  else 64

/-! ### The identifier field -/

/-- The eight hex digits of a 32-bit identifier, most significant first (R51). -/
def idNibbles (id : BitVec 32) : List Nibble :=
  [ id.extractLsb' 28 4, id.extractLsb' 24 4, id.extractLsb' 20 4, id.extractLsb' 16 4,
    id.extractLsb' 12 4, id.extractLsb' 8 4,  id.extractLsb' 4 4,  id.extractLsb' 0 4 ]

/-- `HexMin(v, W)`: the upper-case hex representation without leading zeros, padded on the left with `0` to at least `W`
characters and never cut (R87). -/
def hexMin (id : BitVec 32) (w : Nat) : Line :=
  (List.replicate (w - ((idNibbles id).dropWhile (· == 0#4)).length) 0#4
    ++ (idNibbles id).dropWhile (· == 0#4)).map hc

/-- The number a sequence of hex characters stands for, most significant digit first, continuing from `acc`; none where
a character is invalid (R88, R151). -/
def hexNum? (lower : Bool) (acc : Nat) (cs : Line) : Option Nat :=
  match cs with
  | [] => some acc
  | c :: rest =>
    match hv lower c with
    | some v => hexNum? lower (acc * 16 + v.toNat) rest
    | none   => none

/-! ### The payload field -/

/-- The two characters of one payload byte, high nibble first (R53, R92). -/
def byteChars (b : Byte) : Line := [hc (b.extractLsb' 4 4), hc (b.extractLsb' 0 4)]

/-- The payload characters, bytes in ascending index order (R52, R92). -/
def payloadChars (data : List Byte) : Line := data.flatMap byteChars

/-- The bytes a sequence of hex characters stands for, two characters a byte, the first the high nibble; none where a
character is invalid (R53, R92, R151). -/
def hexBytes? (lower : Bool) (cs : Line) : Option (List Byte) :=
  match cs with
  | [] => some []
  | [_] => none
  | h :: l :: rest =>
    match hv lower h, hv lower l, hexBytes? lower rest with
    | some a, some b, some bs => some (BitVec.ofNat 8 (a.toNat * 16 + b.toNat) :: bs)
    | _, _, _ => none

end Sys2Proof.Machine
end

