-- ==== Sys2Proof/Machine/Frames.lean ====
section
/-! DEFINITION. The eight frame line types: what ENC does to form a line of each (R121, R123 to R130) and what DEC does
with a received line of each (R151 to R159). -/

namespace Sys2Proof.Machine

/-! ### ENC -/

/-- The outcomes of an encode (R12, R232). -/
inductive EncOutcome where
  | line (l : Line)
  | error (e : EncError)
deriving DecidableEq, Repr

/-- `ENCODE` (R121) with the letter and the identifier width of a row. `L2C` is undefined exactly where R122 refuses the
length, so its absence is `LEN_RANGE`; the channel is checked first. The payload is left out when `rtr` = 1, whatever the
letter (R92, R131). -/
def encodeAs (row : FrameRow) (ch : ChanReq) (f : Frame) : EncOutcome :=
  if 3#4 < ch then .error .chanRange
  else
    match l2c? f.len with
    | none => .error .lenRange
    | some code =>
      .line ([0x30#8 + ch.setWidth 8, row.letter] ++ hexMin f.id row.idWidth ++ [hc code]
        ++ (if f.rtr then [] else payloadChars f.data))

/-- The state after an encode (R238). -/
def finishEncode (o : EncOutcome) (s : State) : Host.Outcome State Fault Refusal :=
  match o with
  | .line l  => .next (emitLine l s)
  | .error e => .next (recordError e s)

/-! ### DEC -/

/-- The outcomes of a decode (R12, R231). -/
inductive DecOutcome where
  | frame (f : Frame)
  | noFrame (c : DropCause)
deriving DecidableEq, Repr

/-- The payload branch of `DECODE` (R151): not taken for a remote line or a length of 0. -/
def decodePayload (row : FrameRow) (lower : Bool) (s : Line) (id len : Nat) : DecOutcome :=
  if row.rtr || len == 0 then .frame (row.frame id [] len)
  else
    match memRead s (2 + row.idWidth) (2 * len) with
    | none => .noFrame .plTrunc
    | some cs =>
      match hexBytes? lower cs with
      | none      => .noFrame .plHex
      | some data => .frame (row.frame id data len)

/-- The length-code part of `DECODE` (R151). -/
def decodeCode (row : FrameRow) (lower : Bool) (s : Line) (id : Nat) : DecOutcome :=
  match s[1 + row.idWidth]? with
  | none => .noFrame .lcTrunc
  | some c =>
    match hv lower c with
    | none      => .noFrame .lcHex
    | some code => decodePayload row lower s id (c2l code)

/-- `DECODE` (R151) on a remainder `s` whose first character is the row's letter: the checks in their order, length before
content within a field. `lower` is `ACCEPT_LOWER_HEX`. -/
def decodeAs (row : FrameRow) (lower : Bool) (s : Line) : DecOutcome :=
  match memRead s 1 row.idWidth with
  | none => .noFrame .idTrunc
  | some cs =>
    match hexNum? lower 0 cs with
    | none    => .noFrame .idHex
    | some id => decodeCode row lower s id

/-- The state after a decode (R195). -/
def finishDecode (ch : Chan) (o : DecOutcome) (s : State) : Host.Outcome State Fault Refusal :=
  match o with
  | .frame f   => .next (deliver ch f s)
  | .noFrame c => .next (recordDrop c s)

/-! ### The meanings -/

/-- Both operand forms of a frame row. -/
def execFrame (row : FrameRow) (op : FrameOp) (s : State) : Host.Outcome State Fault Refusal :=
  match op with
  | .encode ch f => finishEncode (encodeAs row ch f) s
  | .decode l    => finishDecode l.chan (decodeAs row Config.acceptLowerHex (row.letter :: l.body)) s

/-- `t` (R123, R152). -/
def execClassicStd (op : FrameOp) (s : State) : Host.Outcome State Fault Refusal := execFrame rowClassicStd op s

/-- `T` (R124, R153). -/
def execClassicExt (op : FrameOp) (s : State) : Host.Outcome State Fault Refusal := execFrame rowClassicExt op s

/-- `r` (R125, R154). -/
def execRemoteStd (op : FrameOp) (s : State) : Host.Outcome State Fault Refusal := execFrame rowRemoteStd op s

/-- `R` (R126, R155). -/
def execRemoteExt (op : FrameOp) (s : State) : Host.Outcome State Fault Refusal := execFrame rowRemoteExt op s

/-- `d` (R127, R156). -/
def execFdStd (op : FrameOp) (s : State) : Host.Outcome State Fault Refusal := execFrame rowFdStd op s

/-- `D` (R128, R157). -/
def execFdExt (op : FrameOp) (s : State) : Host.Outcome State Fault Refusal := execFrame rowFdExt op s

/-- `b` (R129, R158). -/
def execFdBrsStd (op : FrameOp) (s : State) : Host.Outcome State Fault Refusal := execFrame rowFdBrsStd op s

/-- `B` (R130, R159). -/
def execFdBrsExt (op : FrameOp) (s : State) : Host.Outcome State Fault Refusal := execFrame rowFdBrsExt op s

end Sys2Proof.Machine
end

