-- ==== Sys2Proof/Machine/Dispatch.lean ====
section
/-! DEFINITION. One arm per constructor of Instr. -/

namespace Sys2Proof.Machine

def exec (i : Instr) (s : State) : Host.Outcome State Fault Refusal :=
  match i with
  | .classicStd op => Sys2Proof.Machine.execClassicStd op s
  | .classicExt op => Sys2Proof.Machine.execClassicExt op s
  | .remoteStd op => Sys2Proof.Machine.execRemoteStd op s
  | .remoteExt op => Sys2Proof.Machine.execRemoteExt op s
  | .fdStd op => Sys2Proof.Machine.execFdStd op s
  | .fdExt op => Sys2Proof.Machine.execFdExt op s
  | .fdBrsStd op => Sys2Proof.Machine.execFdBrsStd op s
  | .fdBrsExt op => Sys2Proof.Machine.execFdBrsExt op s
  | .openChannel l => Sys2Proof.Machine.execOpenChannel l s
  | .closeChannel l => Sys2Proof.Machine.execCloseChannel l s
  | .setRate l => Sys2Proof.Machine.execSetRate l s
  | .setBitrate l => Sys2Proof.Machine.execSetBitrate l s
  | .setFdRate l => Sys2Proof.Machine.execSetFdRate l s
  | .nominalTiming l => Sys2Proof.Machine.execNominalTiming l s
  | .dataTiming l => Sys2Proof.Machine.execDataTiming l s

end Sys2Proof.Machine
end

