-- ==== Sys2Proof/Machine/Pipeline.lean ====
section
/-! DEFINITION. The agents' steps: the receive pipeline LA, DP, DEC (R58, R195), the encoder (R25, R63), and the actions
of the environment. -/

namespace Sys2Proof.Machine

/-- `RXLINE` (R195) on a complete line: the line's instruction is executed; a line that is no instruction is "not a
frame" (R94, R193). -/
def rxLine (l : Line) (s : State) : Host.Outcome State Fault Refusal :=
  match decode (.line l) with
  | .ok i    => exec i s
  | .error _ => .next (recordDrop .notFrame s)

/-- LA on one character (R58): the terminator completes the line, which is decoded while the buffer becomes empty; any
other character is stored. -/
def rxChar (c : Byte) (s : State) : Host.Outcome State Fault Refusal :=
  if c = Config.lineTerm then rxLine s.rxbuf (clearLine s) else .next (noCause (storeChar c s))

/-- A move of the receive pipeline: while an event is pending LA accepts no character (R65, R236). -/
def receiveMove (s : State) : Host.Outcome State Fault Refusal :=
  match s.frameReceived, s.rxIn with
  | [], c :: cs => rxChar c (setRxIn cs s)
  | _, _        => .next (noCause s)

/-- ENC on one request: the line type its flags select is executed (R83, R121). -/
def encodeRequest (q : Request) (s : State) : Host.Outcome State Fault Refusal :=
  match decode (.request q) with
  | .ok i    => exec i s
  | .error _ => .next (noError s)

/-- A move of ENC: the next request, if there is one (R63). -/
def encodeMove (s : State) : Host.Outcome State Fault Refusal :=
  match s.encIn with
  | q :: qs => encodeRequest q (setEncIn qs s)
  | []      => .next (noError s)

/-- One move. -/
def act (m : Move) (s : State) : Host.Outcome State Fault Refusal :=
  match m with
  | .receive   => receiveMove s
  | .encode    => encodeMove s
  | .takeEvent => .next (takeEvent s)
  | .takeLine  => .next (takeLine s)
  | .reset     => .next (applyReset s)

/-- One step: the schedule's next move; with no move to come the block holds its state (R244). -/
def stepMove (s : State) : Host.Outcome State Fault Refusal :=
  match s.sched with
  | []      => .next s
  | m :: ms => act m (setSched ms s)

/-- `s` with a complete line in the buffer, its terminator next in the character stream, no event holding the pipeline,
and the receive pipeline next to move: what it takes for the very next step to run that line's instruction. -/
def placeLine (l : Line) (s : State) : State :=
  { s with
    sched := .receive :: s.sched
    rxIn := Config.lineTerm :: s.rxIn
    rxbuf := l
    rxlen := BitVec.ofNat 8 l.length
    frameReceived := [] }

end Sys2Proof.Machine
end

