-- ==== Sys2Proof/Machine/Step.lean ====
section
/-! DEFINITION. The step, and the placing of a table word where the step fetches. -/

namespace Sys2Proof.Machine

/-- One step of the machine. -/
def step (s : State) : Host.Outcome State Fault Refusal := stepMove s

/-- `s` with the instruction of a table word as the complete line the next step decodes and executes. -/
def State.withFetchWord (s : State) (nbits w : Nat) : State := placeLine (tableLine nbits w) s

end Sys2Proof.Machine
end

