-- ==== Sys2Proof/Safety.lean ====
section
/-! DEFINITION. The terms in which claims are stated: the row lists, `DECODE` on a whole remainder, the properties R135
and R167 give the block's two kinds of output, the invariant of a safe run, and runs of several steps. -/

namespace Sys2Proof.Machine

/-! ### The rows -/

/-- The eight frame line types: constructor and letter-map row (R82). -/
def frameRows : List ((FrameOp → Instr) × FrameRow) :=
  [ (.classicStd, rowClassicStd), (.classicExt, rowClassicExt), (.remoteStd, rowRemoteStd), (.remoteExt, rowRemoteExt),
    (.fdStd, rowFdStd), (.fdExt, rowFdExt), (.fdBrsStd, rowFdBrsStd), (.fdBrsExt, rowFdBrsExt) ]

/-- The seven configuration line types: constructor and letter (R212 to R218). -/
def configRows : List ((RxLine → Instr) × Byte) :=
  [ (.openChannel, Letter.O), (.closeChannel, Letter.C), (.setRate, Letter.S), (.setBitrate, Letter.y),
    (.setFdRate, Letter.Y), (.nominalTiming, Letter.a), (.dataTiming, Letter.A) ]

/-- The eight frame letters (R82). -/
def frameLetters : List Byte :=
  [Letter.t, Letter.T, Letter.r, Letter.R, Letter.d, Letter.D, Letter.b, Letter.B]

/-- The letter-map row of a first character, if it is a frame letter (R82). -/
def frameRowOf (c : Byte) : Option FrameRow := (frameRows.map Prod.snd).find? (fun row => row.letter == c)

/-! ### Characters and lengths -/

/-- The characters of the channel digits (R190). -/
def channelDigits : List Byte := [0x30#8, 0x31#8, 0x32#8, 0x33#8]

/-- An upper-case hex digit character (R85). -/
def isUpperHex (c : Byte) : Bool := (hv false c).isSome

/-- A lower-case hex digit character (R84). -/
def isLowerHex (c : Byte) : Bool := decide (0x61#8 ≤ c) && decide (c ≤ 0x66#8)

/-- The upper-case form of a hex digit character (R84: minus 0x20). -/
def upperHex (c : Byte) : Byte := if isLowerHex c then c - 0x20#8 else c

/-- The value of the character at index `q` of a remainder, as a hex digit (R86). -/
def hexAt (lower : Bool) (s : Line) (q : Nat) : Option Nibble := s[q]?.bind (hv lower)

/-- The boundary lengths (R15). -/
def boundaryLengths : List Nat := [0, 1, 2, 3, 4, 5, 6, 7, 8, 12, 16, 20, 24, 32, 48, 64]

/-! ### DECODE on a whole remainder -/

/-- `DECODE(s)` (R151): the outcome for any remainder. -/
def decodeRemainder (lower : Bool) (s : Line) : DecOutcome :=
  match s with
  | [] => .noFrame .notFrame
  | c :: _ =>
    match frameRowOf c with
    | some row => decodeAs row lower s
    | none     => .noFrame .notFrame

/-! ### What the block's outputs look like -/

/-- What R167 says of every frame Decode produces, as far as it concerns the frame alone. -/
def producedFrame (f : Frame) : Bool :=
  decide (f.len ∈ boundaryLengths) && decide (f.dlc.toNat ∈ boundaryLengths)
    && (if f.rtr then f.len == 0 && !f.fd && !f.brs else f.dlc.toNat == f.len)
    && (!f.brs || f.fd) && (f.ext || decide (f.id ≤ 0xFFF#32))

/-- What R135 and R68 say of every line Encode emits, as far as it concerns the line alone. -/
def emittedLine (l : Line) : Bool :=
  match l with
  | c :: letter :: rest =>
    decide (c ∈ channelDigits) && decide (letter ∈ frameLetters) && rest.all isUpperHex
      && decide (4 ≤ rest.length) && decide (rest.length ≤ 137)
  | _ => false

/-! ### The invariant of a run -/

/-- The line buffer is in its canonical form (R27); at most one event is pending (R236) and every pending event holds a
frame Decode can produce (R167); every pending line is one Encode can emit (R135); a counter that does not exist has
counted nothing (R31). -/
def State.inv (s : State) : Bool :=
  Memory.wf s
    && decide (s.frameReceived.length ≤ 1)
    && s.frameReceived.all (fun e => producedFrame e.frame)
    && s.encLine.all emittedLine
    && (s.dropcnt == 0#32 || Config.hasDropCounter)

/-! ### Several steps -/

/-- `k` steps, stopping at the first that does not go on. -/
def runSteps (k : Nat) (s : State) : Host.Outcome State Fault Refusal :=
  match k with
  | 0 => .next s
  | k + 1 =>
    match step s with
    | .next t    => runSteps k t
    | .fault r   => .fault r
    | .refused r => .refused r

end Sys2Proof.Machine
end

