-- ==== Sys2Proof/Certificates/Slice0/Obligations.lean ====
section
/-! DEFINITION. The statements about the model, for the provers. Where a statement says what `dec_cause` or `enc_err` carries
after a move that produced no outcome, that clause is the model's choice (log entry 4), not the spec's. -/

open Sys2Proof Sys2Proof.Machine

/-! ### Encoding -/

/-- Decode and encode agree, for every well-formed instruction in both operand forms (R80, R83, R93, R97). -/
def Obligations.DecodeInvertsEncode : Prop :=
  ∀ i : Instr, i.wellFormed = true → decode (encode i) = .ok i

/-- The other direction: whatever decodes to an instruction is what the instruction encodes to. -/
def Obligations.EncodeInvertsDecode : Prop :=
  ∀ (w : Words) (i : Instr), decode w = .ok i → encode i = w

/-- A line LA can hold, and a request whose length its 7 bits can express, decode to well-formed instructions. -/
def Obligations.DecodedInstrWellFormed : Prop :=
  (∀ (l : Line) (i : Instr), l.length ≤ 139 → 0x0D#8 ∉ l → decode (.line l) = .ok i → i.wellFormed = true)
  ∧ (∀ (q : Request) (i : Instr), q.frame.len ≤ 127 → decode (.request q) = .ok i → i.wellFormed = true)

/-- Words written out from the spec's formats (R80, R81, R82, R210): one frame line with and one without its channel digit,
an extended remote line, three configuration lines, and a line no row matches. -/
def Obligations.WrittenOutWordsDecode : Prop :=
  decode (.line [0x30#8, 0x74#8, 0x31#8, 0x32#8, 0x33#8, 0x31#8, 0x41#8, 0x42#8])
      = .ok (.classicStd (.decode ⟨some 0#2, [0x31#8, 0x32#8, 0x33#8, 0x31#8, 0x41#8, 0x42#8]⟩))
  ∧ decode (.line [0x62#8, 0x30#8, 0x30#8, 0x31#8, 0x30#8])
      = .ok (.fdBrsStd (.decode ⟨none, [0x30#8, 0x30#8, 0x31#8, 0x30#8]⟩))
  ∧ decode (.line [0x32#8, 0x52#8, 0x30#8, 0x30#8, 0x30#8, 0x30#8, 0x30#8, 0x32#8, 0x30#8, 0x30#8, 0x30#8])
      = .ok (.remoteExt (.decode ⟨some 2#2, [0x30#8, 0x30#8, 0x30#8, 0x30#8, 0x30#8, 0x32#8, 0x30#8, 0x30#8, 0x30#8]⟩))
  ∧ decode (.line [0x32#8, 0x4F#8]) = .ok (.openChannel ⟨some 2#2, []⟩)
  ∧ decode (.line [0x33#8, 0x59#8, 0x32#8]) = .ok (.setFdRate ⟨some 3#2, [0x32#8]⟩)
  ∧ decode (.line [0x30#8, 0x41#8, 0x31#8]) = .ok (.dataTiming ⟨some 0#2, [0x31#8]⟩)
  ∧ decode (.line [0x34#8, 0x74#8]) = .error (.noRow 0x34#8)

/-- Of the 256 first characters of a remainder fifteen match a row of the table, none more than one (R94, R97). -/
def Obligations.FirstCharactersOfTheTable : Prop :=
  ∀ c : Byte,
    ((lookup c).isSome = true ↔ c ∈ frameLetters ++ configRows.map Prod.snd)
    ∧ (opTable.filter (fun r => c &&& r.mask == r.pattern)).length ≤ 1

/-- The letter of a request, for all sixteen flag combinations (R83). -/
def Obligations.LetterSelection : Prop :=
  ∀ q : Request, ∃ p ∈ frameRows,
    decode (.request q) = .ok (p.1 (.encode q.ch q.frame))
    ∧ p.2.letter =
        (let base : Byte :=
          if q.frame.fd then (if q.frame.brs then 0x62#8 else 0x64#8) else (if q.frame.rtr then 0x72#8 else 0x74#8)
         if q.frame.ext then base - 0x20#8 else base)
    ∧ p.2.ext = q.frame.ext

/-- The letter map (R82): the eight letters with their flags, and the rule Decode reads the flags by. -/
def Obligations.LetterMap : Prop :=
  frameRows.map Prod.snd =
    [ ⟨0x74#8, false, false, false, false⟩, ⟨0x54#8, true, false, false, false⟩,
      ⟨0x72#8, false, false, false, true⟩,  ⟨0x52#8, true, false, false, true⟩,
      ⟨0x64#8, false, true, false, false⟩,  ⟨0x44#8, true, true, false, false⟩,
      ⟨0x62#8, false, true, true, false⟩,   ⟨0x42#8, true, true, true, false⟩ ]
  ∧ ∀ row ∈ frameRows.map Prod.snd,
      (row.ext = true ↔ 0x41#8 ≤ row.letter ∧ row.letter ≤ 0x5A#8)
      ∧ (row.fd = true ↔ row.letter ∈ [0x64#8, 0x44#8, 0x62#8, 0x42#8])
      ∧ (row.brs = true ↔ row.letter ∈ [0x62#8, 0x42#8])
      ∧ (row.rtr = true ↔ row.letter ∈ [0x72#8, 0x52#8])

/-! ### Conversions and tables -/

/-- `hc` and `hv` on every argument (R85, R86). -/
def Obligations.HexDigitConversions : Prop :=
  (∀ v : Nibble, (hc v).toNat = if v.toNat ≤ 9 then 0x30 + v.toNat else 0x41 + v.toNat - 10)
  ∧ ∀ (lower : Bool) (c : Byte), hv lower c =
      if 0x30 ≤ c.toNat ∧ c.toNat ≤ 0x39 then some (BitVec.ofNat 4 (c.toNat - 0x30))
      else if 0x41 ≤ c.toNat ∧ c.toNat ≤ 0x46 then some (BitVec.ofNat 4 (c.toNat - 0x41 + 10))
      else if lower = true ∧ 0x61 ≤ c.toNat ∧ c.toNat ≤ 0x66 then some (BitVec.ofNat 4 (c.toNat - 0x61 + 10))
      else none

/-- The two length-code tables written out (R89, R90) and their laws (R91). -/
def Obligations.LengthCodeTables : Prop :=
  (∀ c : Nibble, c2l c = [0, 1, 2, 3, 4, 5, 6, 7, 8, 12, 16, 20, 24, 32, 48, 64].getD c.toNat 0)
  ∧ (∀ n : Fin 65, l2c? n.val = some
      (if n.val ≤ 8 then BitVec.ofNat 4 n.val else if n.val ≤ 12 then 9#4 else if n.val ≤ 16 then 10#4
       else if n.val ≤ 20 then 11#4 else if n.val ≤ 24 then 12#4 else if n.val ≤ 32 then 13#4
       else if n.val ≤ 48 then 14#4 else 15#4))
  ∧ (∀ c : Nibble, l2c? (c2l c) = some c)
  ∧ (∀ n : Fin 65, ∀ c : Nibble, l2c? n.val = some c →
      n.val ≤ c2l c ∧ (c2l c = n.val ↔ n.val ∈ boundaryLengths)
      ∧ ∀ b ∈ boundaryLengths, n.val ≤ b → c2l c ≤ b)
  ∧ (∀ c d : Nibble, c ≤ d → c2l c ≤ c2l d)
  ∧ (∀ m n : Fin 65, ∀ c d : Nibble, m ≤ n → l2c? m.val = some c → l2c? n.val = some d → c ≤ d)

/-- The identifier field on Encode (R87): upper-case hex digits standing for the identifier, never cut; its length is the
larger of the width and the number of digits the identifier needs. -/
def Obligations.IdentifierFieldOnEncode : Prop :=
  (∀ p ∈ frameRows, p.2.idWidth = if p.2.ext then 8 else 3)
  ∧ (∀ (id : BitVec 32) (w : Nat), w ≤ 8 →
      (hexMin id w).length = max w ((Nat.size id.toNat + 3) / 4)
      ∧ (∀ c ∈ hexMin id w, isUpperHex c = true)
      ∧ ∀ lower, hexNum? lower 0 (hexMin id w) = some id.toNat)
  ∧ (∀ id : BitVec 32, (hexMin id 8).length = 8
      ∧ (id ≤ 0xFFF#32 → (hexMin id 3).length = 3)
      ∧ (0xFFF#32 < id → 4 ≤ (hexMin id 3).length ∧ (hexMin id 3).length ≤ 8))

/-- Reading the line space (R11, R33): what was appended reads back, every character already there reads as before, and a
read beyond the end is not defined. -/
def Obligations.AppendThenRead : Prop :=
  ∀ (buf v : Line) (a n : Nat),
    memRead (append buf v) buf.length v.length = some v
    ∧ (a + n ≤ buf.length → memRead (append buf v) a n = memRead buf a n)
    ∧ (memRead buf a n = none ↔ buf.length < a + n)
    ∧ (append buf v).length = buf.length + v.length

/-! ### Dispatch -/

/-- `DISPATCH` (R190): one of the characters `0` to `3` at index 0 is the channel and is removed; any other line goes to
channel 0 as it is. -/
def Obligations.DispatchRule : Prop :=
  ∀ l : Line, dispatch l =
    match l with
    | c :: rest => if c ∈ channelDigits then (BitVec.ofNat 2 (c.toNat - 0x30), rest) else (0#2, c :: rest)
    | [] => (0#2, [])

/-- The empty line and the line that is only a channel digit are "not a frame" (R193). -/
def Obligations.EmptyRemainderIsNoFrame : Prop :=
  dispatch [] = (0#2, []) ∧ dispatch [0x32#8] = (2#2, [])
  ∧ ∀ (s : State) (ch : Chan),
      rxLine [] s = .next { s with decCause := some 1#3 }
      ∧ rxLine [digitChar ch] s = .next { s with decCause := some 1#3 }

/-- A line with no leading digit in `0` to `3` is routed to channel 0, and is indistinguishable from the same line with `0`
before it (R194). -/
def Obligations.DefaultChannelIsZero : Prop :=
  ∀ (l : Line) (s : State), (∀ c, l.head? = some c → c ∉ channelDigits) →
    (dispatch l).1 = 0#2 ∧ rxLine (0x30#8 :: l) s = rxLine l s

/-! ### The encoder -/

/-- `ENCODE(CH, F)` (R121), whole: the two refusals in their order, and the line. -/
def Obligations.EncodeProcedure : Prop :=
  ∀ (q : Request) (s : State),
    (3#4 < q.ch → encodeRequest q s = .next { s with encErr := some 1#2 })
    ∧ (q.ch ≤ 3#4 → 64 < q.frame.len → encodeRequest q s = .next { s with encErr := some 2#2 })
    ∧ (q.ch ≤ 3#4 → q.frame.len ≤ 64 → ∃ code, l2c? q.frame.len = some code ∧
        encodeRequest q s = .next { s with
          encErr := some 0#2
          encLine := s.encLine ++
            [ [0x30#8 + q.ch.setWidth 8]
              ++ [(let base : Byte := if q.frame.fd then (if q.frame.brs then 0x62#8 else 0x64#8)
                                      else (if q.frame.rtr then 0x72#8 else 0x74#8)
                   if q.frame.ext then base - 0x20#8 else base)]
              ++ hexMin q.frame.id (if q.frame.ext then 8 else 3)
              ++ [hc code]
              ++ (if q.frame.rtr then [] else
                  q.frame.data.flatMap (fun b => [hc (b.extractLsb' 4 4), hc (b.extractLsb' 0 4)])) ] })

/-- The encode form of each of the eight frame line types goes on, with the row's line (R123 to R130), for every frame of
at most 64 bytes on channels 0 to 3; the flags a row consults come from the row. -/
def Obligations.EncodeFormsComplete : Prop :=
  ∀ p ∈ frameRows, ∀ (ch : ChanReq) (f : Frame) (s : State), ch ≤ 3#4 → f.len ≤ 64 →
    ∃ code, l2c? f.len = some code ∧
      exec (p.1 (.encode ch f)) s = .next { s with
        encErr := some 0#2
        encLine := s.encLine ++
          [ [0x30#8 + ch.setWidth 8] ++ [p.2.letter] ++ hexMin f.id (if p.2.ext then 8 else 3) ++ [hc code]
            ++ (if f.rtr then [] else f.data.flatMap (fun b => [hc (b.extractLsb' 4 4), hc (b.extractLsb' 0 4)])) ] }

/-- The encoder errors (R122), for the encode form of each of the eight line types: `CHAN_RANGE` for a channel of 4 to 15,
before `LEN_RANGE` for a length above 64; nothing else happens, and no other input is refused. -/
def Obligations.EncodeRefusals : Prop :=
  ∀ p ∈ frameRows, ∀ (ch : ChanReq) (f : Frame) (s : State),
    (3#4 < ch → exec (p.1 (.encode ch f)) s = .next { s with encErr := some 1#2 })
    ∧ (ch ≤ 3#4 → 64 < f.len → exec (p.1 (.encode ch f)) s = .next { s with encErr := some 2#2 })
    ∧ (ch ≤ 3#4 → f.len ≤ 64 → ∃ l, exec (p.1 (.encode ch f)) s =
        .next { s with encErr := some 0#2, encLine := s.encLine ++ [l] })

/-- What holds of every emitted line (R135 (a) to (e), R68): channel digit, frame letter, upper-case digits after it, the
length, and what Dispatch makes of it. -/
def Obligations.EmittedLineProperties : Prop :=
  ∀ (q : Request) (s : State), q.ch ≤ 3#4 → q.frame.len ≤ 64 →
    ∃ l : Line,
      encodeRequest q s = .next { s with encErr := some 0#2, encLine := s.encLine ++ [l] }
      ∧ l[0]? = some (0x30#8 + q.ch.setWidth 8)
      ∧ (∃ c ∈ frameLetters, l[1]? = some c)
      ∧ (∀ c ∈ l.drop 2, isUpperHex c = true)
      ∧ l.length = 2 + max (if q.frame.ext then 8 else 3) ((Nat.size q.frame.id.toNat + 3) / 4) + 1
          + (if q.frame.rtr then 0 else 2 * q.frame.len)
      ∧ 6 ≤ l.length ∧ l.length ≤ 139
      ∧ dispatch l = (q.ch.setWidth 2, l.drop 1)

/-- The two ends fit (R198): Dispatch gives a sent line back its channel and a remainder that begins with a frame letter,
and if the line comes back unchanged whatever it is reported as is reported on that channel. -/
def Obligations.LineComesBackOnItsChannel : Prop :=
  ∀ (q : Request) (s s' : State), q.ch ≤ 3#4 → q.frame.len ≤ 64 →
    ∃ l : Line,
      encodeRequest q s = .next { s with encErr := some 0#2, encLine := s.encLine ++ [l] }
      ∧ dispatch l = (q.ch.setWidth 2, l.drop 1)
      ∧ (∃ c ∈ frameLetters, (l.drop 1).head? = some c)
      ∧ ∃ t, rxLine l s' = .next t
          ∧ ∀ e ∈ t.frameReceived.drop s'.frameReceived.length, e.ch = q.ch.setWidth 2

/-- What does not show in the line (R120, R131, R134, R135): `dlc` never; `brs` when `fd` = 0; `rtr` when `fd` = 1 and
`len` = 0; with `rtr` = 1 the bytes of `data`, as long as the length code stays. -/
def Obligations.WhatTheLineDoesNotShow : Prop :=
  ∀ (ch : ChanReq) (f : Frame) (s : State),
    (∀ d, encodeRequest ⟨ch, { f with dlc := d }⟩ s = encodeRequest ⟨ch, f⟩ s)
    ∧ (f.fd = false → ∀ b, encodeRequest ⟨ch, { f with brs := b }⟩ s = encodeRequest ⟨ch, f⟩ s)
    ∧ (f.fd = true → f.len = 0 → ∀ r, encodeRequest ⟨ch, { f with rtr := r }⟩ s = encodeRequest ⟨ch, f⟩ s)
    ∧ (f.rtr = true → ∀ data : List Byte, l2c? data.length = l2c? f.len →
        encodeRequest ⟨ch, { f with data := data }⟩ s = encodeRequest ⟨ch, f⟩ s)

/-- The frame of the encode form of the eight line types (R56, R120): no input, no character of the line buffer, nothing of
the receive side changes, and the lines already emitted stay first in their order. -/
def Obligations.EncodeFormsFrame : Prop :=
  ∀ p ∈ frameRows, ∀ (ch : ChanReq) (f : Frame) (s t : State), exec (p.1 (.encode ch f)) s = .next t →
    t.sched = s.sched ∧ t.rxIn = s.rxIn ∧ t.encIn = s.encIn
    ∧ t.rxbuf = s.rxbuf ∧ (∀ a n, memRead t.rxbuf a n = memRead s.rxbuf a n) ∧ t.rxlen = s.rxlen
    ∧ t.dropcnt = s.dropcnt ∧ t.decCause = s.decCause ∧ t.frameReceived = s.frameReceived
    ∧ (t.encErr = some 0#2 → ∃ l, t.encLine = s.encLine ++ [l])
    ∧ (t.encErr ≠ some 0#2 → t.encLine = s.encLine)

/-! ### The decoder -/

/-- Which cause a received frame line reports (R231, R237), for each of the eight line types: the first condition that
applies, on the remainder `r`, its letter included. A drop changes `dec_cause` and, where it exists, the counter. -/
def Obligations.DecodeReportsFirstCause : Prop :=
  ∀ p ∈ frameRows, ∀ (l : RxLine) (s : State),
    let r := p.2.letter :: l.body
    let w := if p.2.ext then 8 else 3
    let dropped := fun (k : BitVec 3) => Host.Outcome.next (φ := Fault) (ρ := Refusal) { s with
      decCause := some k
      dropcnt := if Config.hasDropCounter then s.dropcnt + 1#32 else s.dropcnt }
    let digit := hexAt Config.acceptLowerHex r
    (r.length < 1 + w → exec (p.1 (.decode l)) s = dropped 2#3)
    ∧ (1 + w ≤ r.length → (∃ q, 1 ≤ q ∧ q ≤ w ∧ digit q = none) → exec (p.1 (.decode l)) s = dropped 3#3)
    ∧ ((∀ q, 1 ≤ q → q ≤ w → digit q ≠ none) → r.length = 1 + w → exec (p.1 (.decode l)) s = dropped 4#3)
    ∧ ((∀ q, 1 ≤ q → q ≤ w → digit q ≠ none) → 2 + w ≤ r.length → digit (1 + w) = none →
        exec (p.1 (.decode l)) s = dropped 5#3)
    ∧ ∀ code : Nibble, (∀ q, 1 ≤ q → q ≤ w → digit q ≠ none) → digit (1 + w) = some code → p.2.rtr = false →
        (r.length < 2 + w + 2 * c2l code → exec (p.1 (.decode l)) s = dropped 6#3)
        ∧ (2 + w + 2 * c2l code ≤ r.length → (∃ q, 2 + w ≤ q ∧ q < 2 + w + 2 * c2l code ∧ digit q = none) →
            exec (p.1 (.decode l)) s = dropped 7#3)

/-- What a received frame line delivers (R151 to R159, R88, R92, R165), for each of the eight line types: with a digit at
every position Decode reads, one event on the line's channel, every field of its frame as the characters say. -/
def Obligations.DecodeDeliversTheFrame : Prop :=
  ∀ p ∈ frameRows, ∀ (l : RxLine) (s : State) (v : Nat → Nibble),
    let r := p.2.letter :: l.body
    let w := if p.2.ext then 8 else 3
    let len := c2l (v (1 + w))
    (∀ q, 1 ≤ q → q ≤ 1 + w → hexAt Config.acceptLowerHex r q = some (v q)) →
    (p.2.rtr = false → ∀ q, 2 + w ≤ q → q < 2 + w + 2 * len → hexAt Config.acceptLowerHex r q = some (v q)) →
    exec (p.1 (.decode l)) s = .next { s with
      decCause := some 0#3
      frameReceived := s.frameReceived ++
        [ ⟨l.digit.getD 0#2,
           { id := BitVec.ofNat 32 (∑ k ∈ Finset.range w, (v (1 + k)).toNat * 16 ^ (w - 1 - k))
             data := if p.2.rtr then [] else
               (List.range len).map (fun i => BitVec.ofNat 8 ((v (w + 2 + 2 * i)).toNat * 16 + (v (w + 3 + 2 * i)).toNat))
             dlc := BitVec.ofNat 7 len
             ext := p.2.ext, rtr := p.2.rtr, fd := p.2.fd, brs := p.2.brs }⟩ ] }

/-- `RXLINE` (R195) for every complete line: Dispatch, then Decode, then the notification, or the drop. -/
def Obligations.ReceivePipelineProcedure : Prop :=
  ∀ (l : Line) (s : State), rxLine l s =
    match decodeRemainder Config.acceptLowerHex (dispatch l).2 with
    | .frame f => .next { s with
        decCause := some 0#3, frameReceived := s.frameReceived ++ [⟨(dispatch l).1, f⟩] }
    | .noFrame c => .next { s with
        decCause := some c.code
        dropcnt := if Config.hasDropCounter = true ∧ 2 ≤ c.code.toNat then s.dropcnt + 1#32 else s.dropcnt }

/-- What holds of every frame Decode produces (R167). -/
def Obligations.ProducedFrameProperties : Prop :=
  ∀ (l : Line) (s t : State) (e : Event), rxLine l s = .next t →
    e ∈ t.frameReceived.drop s.frameReceived.length →
    ∃ c rest row code,
      (dispatch l).2 = c :: rest ∧ row ∈ frameRows.map Prod.snd ∧ row.letter = c
      ∧ hexAt Config.acceptLowerHex (c :: rest) (1 + row.idWidth) = some code
      ∧ e.frame.ext = row.ext ∧ e.frame.rtr = row.rtr ∧ e.frame.fd = row.fd ∧ e.frame.brs = row.brs
      ∧ e.frame.len ∈ boundaryLengths ∧ e.frame.dlc.toNat = c2l code
      ∧ (e.frame.rtr = true → e.frame.len = 0 ∧ e.frame.fd = false ∧ e.frame.brs = false)
      ∧ (e.frame.brs = true → e.frame.fd = true)
      ∧ (e.frame.ext = false → e.frame.id ≤ 0xFFF#32)

/-- Characters after the last one Decode needs are ignored, whatever they are (R160). -/
def Obligations.TrailingCharactersIgnored : Prop :=
  ∀ p ∈ frameRows, ∀ (d : Option Chan) (body trailing : Line) (s t : State),
    exec (p.1 (.decode ⟨d, body⟩)) s = .next t → t.decCause = some 0#3 →
    exec (p.1 (.decode ⟨d, body ++ trailing⟩)) s = .next t

/-- The open parameter (R161, R283): it changes nothing for a remainder without lower-case hex digits after its letter, and
it never turns a frame into another frame or a drop. -/
def Obligations.LowerHexParameter : Prop :=
  ∀ row ∈ frameRows.map Prod.snd, ∀ r : Line,
    ((∀ c ∈ r.tail, isLowerHex c = false) → decodeAs row true r = decodeAs row false r)
    ∧ ∀ f, decodeAs row false r = .frame f → decodeAs row true r = .frame f

/-- The frame of the decode form of the eight frame line types and of the seven configuration lines (R26, R57, R238): only
`dec_cause`, the counter and the event output change; a drop emits nothing; a frame appends one event to those pending. -/
def Obligations.ReceivedLinesFrame : Prop :=
  ∀ (i : Instr) (s t : State),
    ((∃ p ∈ frameRows, ∃ l, i = p.1 (.decode l)) ∨ (∃ p ∈ configRows, ∃ l, i = p.1 l)) →
    exec i s = .next t →
    t.sched = s.sched ∧ t.rxIn = s.rxIn ∧ t.encIn = s.encIn
    ∧ t.rxbuf = s.rxbuf ∧ (∀ a n, memRead t.rxbuf a n = memRead s.rxbuf a n) ∧ t.rxlen = s.rxlen
    ∧ t.encLine = s.encLine ∧ t.encErr = s.encErr
    ∧ (t.decCause = some 0#3 → t.dropcnt = s.dropcnt ∧ ∃ e, t.frameReceived = s.frameReceived ++ [e])
    ∧ (t.decCause ≠ some 0#3 → t.frameReceived = s.frameReceived)
    ∧ (t.dropcnt ≠ s.dropcnt → Config.hasDropCounter = true ∧ t.dropcnt = s.dropcnt + 1#32
        ∧ ∃ k, t.decCause = some k ∧ 2 ≤ k.toNat)

/-! ### Round trips -/

/-- Encode, then decode (R168, R163, R170): on its channel always, and under the premises (a) to (c) the same frame when (d)
holds and `NoFrame(PL_TRUNC)` when it does not. -/
def Obligations.EncodeThenDecode : Prop :=
  ∀ (q : Request) (s s' : State), q.ch ≤ 3#4 → q.frame.len ≤ 64 →
    ∃ (l : Line) (code : Nibble),
      encodeRequest q s = .next { s with encErr := some 0#2, encLine := s.encLine ++ [l] }
      ∧ l2c? q.frame.len = some code
      ∧ (dispatch l).1 = q.ch.setWidth 2
      ∧ ((q.frame.ext = true ∨ q.frame.id ≤ 0xFFF#32) →
         (q.frame.brs = true → q.frame.fd = true) →
         ¬(q.frame.fd = true ∧ q.frame.rtr = true) →
         ((q.frame.rtr = true ∨ q.frame.len ∈ boundaryLengths) →
            rxLine l s' = .next { s' with
              decCause := some 0#3
              frameReceived := s'.frameReceived ++
                [ ⟨q.ch.setWidth 2, { q.frame with
                    data := if q.frame.rtr then [] else q.frame.data
                    dlc := BitVec.ofNat 7 (c2l code) }⟩ ] })
         ∧ (¬(q.frame.rtr = true ∨ q.frame.len ∈ boundaryLengths) →
            rxLine l s' = .next { s' with
              decCause := some 6#3
              dropcnt := if Config.hasDropCounter then s'.dropcnt + 1#32 else s'.dropcnt }))

/-- Decode, then encode (R169): the remainder cut after its last needed character and with upper-case digits, behind the
digit of the channel; for a remote frame the code is `0`, since it comes from `len` and not from `dlc`. -/
def Obligations.DecodeThenEncode : Prop :=
  ∀ (c : Byte) (body : Line) (f : Frame) (ch : ChanReq) (s : State),
    decodeRemainder Config.acceptLowerHex (c :: body) = .frame f → ch ≤ 3#4 →
    let w := if f.ext then 8 else 3
    encodeRequest ⟨ch, f⟩ s = .next { s with
      encErr := some 0#2
      encLine := s.encLine ++
        [ [0x30#8 + ch.setWidth 8, c] ++ (body.take w).map upperHex
          ++ (if f.rtr then [0x30#8] else ((body.drop w).take (1 + 2 * f.len)).map upperHex) ] }

/-- What becomes of an identifier that needs more digits than its field (R132, R275): the line never comes back as the frame
that was sent; if it comes back as a frame, its identifier is the first three digits. -/
def Obligations.OverRangeIdentifierIsNotReadBack : Prop :=
  ∀ (q : Request) (s s' : State), q.ch ≤ 3#4 → q.frame.len ≤ 64 → q.frame.ext = false → 0xFFF#32 < q.frame.id →
    ∃ l : Line,
      encodeRequest q s = .next { s with encErr := some 0#2, encLine := s.encLine ++ [l] }
      ∧ ∃ t, rxLine l s' = .next t
        ∧ ∀ e ∈ t.frameReceived.drop s'.frameReceived.length,
            e.frame.id ≠ q.frame.id
            ∧ e.frame.id.toNat = q.frame.id.toNat / 16 ^ ((Nat.size q.frame.id.toNat + 3) / 4 - 3)

/-- The flag combinations outside the conventions (R131, R276): an FD frame marked remote comes back as an FD data frame
without the mark when it is empty, and as `NoFrame(PL_TRUNC)` when it is not. -/
def Obligations.FdRemoteIsNotReadBack : Prop :=
  ∀ (q : Request) (s s' : State), q.ch ≤ 3#4 → q.frame.len ≤ 64 → q.frame.fd = true → q.frame.rtr = true →
    (q.frame.ext = true ∨ q.frame.id ≤ 0xFFF#32) →
    ∃ l : Line,
      encodeRequest q s = .next { s with encErr := some 0#2, encLine := s.encLine ++ [l] }
      ∧ (q.frame.len = 0 → rxLine l s' = .next { s' with
          decCause := some 0#3
          frameReceived := s'.frameReceived ++ [⟨q.ch.setWidth 2, { q.frame with rtr := false, dlc := 0#7 }⟩] })
      ∧ (0 < q.frame.len → rxLine l s' = .next { s' with
          decCause := some 6#3
          dropcnt := if Config.hasDropCounter then s'.dropcnt + 1#32 else s'.dropcnt })

/-! ### Lines that are no frame lines -/

/-- Each of the seven configuration lines is "not a frame" (R211 to R218): no event, no counter change; the same for a
complete line with or without its channel digit, whatever follows the letter. -/
def Obligations.ConfigurationLinesAreNoFrames : Prop :=
  ∀ p ∈ configRows, ∀ (l : RxLine) (s : State),
    exec (p.1 l) s = .next { s with decCause := some 1#3 }
    ∧ rxLine (p.2 :: l.body) s = .next { s with decCause := some 1#3 }
    ∧ ∀ ch : Chan, rxLine (digitChar ch :: p.2 :: l.body) s = .next { s with decCause := some 1#3 }

/-- Any remainder that does not begin with a frame letter is "not a frame" (R94, R191, R192, R219). -/
def Obligations.OtherFirstCharactersAreNoFrames : Prop :=
  ∀ (l : Line) (s : State), (∀ c, (dispatch l).2.head? = some c → c ∉ frameLetters) →
    rxLine l s = .next { s with decCause := some 1#3 }

/-! ### The line assembler -/

/-- LA on one character (R58): `CR` hands the buffer to the pipeline and empties it; any other character is appended while
there is room and discarded when there is none. -/
def Obligations.LineAssemblerTakesOneCharacter : Prop :=
  ∀ (s : State) (ms : List Move) (c : Byte) (cs : List Byte),
    s.sched = .receive :: ms → s.frameReceived = [] → s.rxIn = c :: cs →
    (c = 0x0D#8 → step s = rxLine s.rxbuf { s with sched := ms, rxIn := cs, rxbuf := [], rxlen := 0#8 })
    ∧ (c ≠ 0x0D#8 → s.rxlen.toNat < 139 → ∃ t, step s = .next t ∧ t.rxIn = cs
        ∧ t.rxbuf = s.rxbuf ++ [c] ∧ t.rxlen = s.rxlen + 1#8 ∧ t.frameReceived = [] ∧ t.dropcnt = s.dropcnt)
    ∧ (c ≠ 0x0D#8 → 139 ≤ s.rxlen.toNat → ∃ t, step s = .next t ∧ t.rxIn = cs
        ∧ t.rxbuf = s.rxbuf ∧ t.rxlen = s.rxlen ∧ t.frameReceived = [] ∧ t.dropcnt = s.dropcnt)

/-- After a terminator the buffer is empty, whatever the line was (R66, R234). -/
def Obligations.TerminatorEmptiesTheBuffer : Prop :=
  ∀ (s : State) (ms : List Move) (cs : List Byte),
    s.sched = .receive :: ms → s.frameReceived = [] → s.rxIn = 0x0D#8 :: cs →
    ∃ t, step s = .next t ∧ t.rxbuf = [] ∧ t.rxlen = 0#8 ∧ t.rxIn = cs ∧ t.decCause ≠ none

/-- A whole line, character by character (R58, R59): the line of the characters before the terminator, at most 139 of them,
is decoded exactly once, and the buffer is empty afterwards. -/
def Obligations.WholeLineReception : Prop :=
  ∀ (l : Line) (rest : List Byte) (ms : List Move) (s : State),
    0x0D#8 ∉ l → s.rxbuf = [] → s.rxlen = 0#8 → s.frameReceived = [] →
    s.rxIn = l ++ 0x0D#8 :: rest → s.sched = List.replicate (l.length + 1) Move.receive ++ ms →
    runSteps (l.length + 1) s = rxLine (l.take 139) { s with sched := ms, rxIn := rest }

/-- The bound on the buffer loses nothing (R59, R284): the outcome of a line is that of its first 139 characters. -/
def Obligations.LongLineHasSameOutcome : Prop :=
  ∀ (l : Line) (s : State), rxLine (l.take 139) s = rxLine l s

/-- While an event is pending the receive pipeline accepts no character and loses nothing (R65, R236). -/
def Obligations.PendingEventHoldsReception : Prop :=
  ∀ (s : State) (ms : List Move), s.sched = .receive :: ms → s.frameReceived ≠ [] →
    ∃ t, step s = .next t ∧ t.rxIn = s.rxIn ∧ t.rxbuf = s.rxbuf ∧ t.rxlen = s.rxlen
      ∧ t.frameReceived = s.frameReceived ∧ t.dropcnt = s.dropcnt ∧ t.encLine = s.encLine ∧ t.encIn = s.encIn

/-! ### The machine -/

/-- Order of the outputs (R62, R63): a receive move adds at most one event, behind those pending, an encode move at most one
line, behind those pending and for the first waiting request; the environment takes the oldest of either output, and by that
nothing inside the block is lost (R65, R235, R236). That the encode move takes the first request although a line may still be
pending is the model's choice, log entry 5. -/
def Obligations.OutputsKeepTheirOrder : Prop :=
  ∀ (s t : State) (m : Move) (ms : List Move), s.sched = m :: ms → step s = .next t →
    (m = .receive → t.encLine = s.encLine ∧ t.encIn = s.encIn ∧ t.rxIn <:+ s.rxIn
      ∧ (t.frameReceived = s.frameReceived ∨ ∃ e, t.frameReceived = s.frameReceived ++ [e]))
    ∧ (m = .encode → t.frameReceived = s.frameReceived ∧ t.rxIn = s.rxIn ∧ t.encIn = s.encIn.tail
      ∧ t.rxbuf = s.rxbuf ∧ t.rxlen = s.rxlen
      ∧ (t.encLine = s.encLine ∨ ∃ l, t.encLine = s.encLine ++ [l]))
    ∧ (m = .takeEvent → t.frameReceived = s.frameReceived.tail ∧ t.encLine = s.encLine
      ∧ t.rxbuf = s.rxbuf ∧ t.rxlen = s.rxlen ∧ t.rxIn = s.rxIn ∧ t.encIn = s.encIn)
    ∧ (m = .takeLine → t.encLine = s.encLine.tail ∧ t.frameReceived = s.frameReceived
      ∧ t.rxbuf = s.rxbuf ∧ t.rxlen = s.rxlen ∧ t.rxIn = s.rxIn ∧ t.encIn = s.encIn)

/-- The two agents are independent (R64): a receive move and an encode move give the same state in either order. -/
def Obligations.AgentsAreIndependent : Prop :=
  ∀ (s : State) (ms : List Move),
    runSteps 2 { s with sched := .receive :: .encode :: ms } = runSteps 2 { s with sched := .encode :: .receive :: ms }

/-- The drop counter (R31, R195, R270): a receive move that reports a cause of 2 to 7 adds one modulo 2^32 if the counter
exists; reset makes it 0; nothing else changes it. -/
def Obligations.DropCounterCounts : Prop :=
  ∀ (s t : State) (m : Move) (ms : List Move), s.sched = m :: ms → step s = .next t →
    (m = .reset → t.dropcnt = 0#32)
    ∧ (m = .receive → ∀ k, t.decCause = some k → 2 ≤ k.toNat →
        t.dropcnt = if Config.hasDropCounter then s.dropcnt + 1#32 else s.dropcnt)
    ∧ (m = .receive → (t.decCause = none ∨ t.decCause = some 0#3 ∨ t.decCause = some 1#3) → t.dropcnt = s.dropcnt)
    ∧ (m = .encode ∨ m = .takeEvent ∨ m = .takeLine → t.dropcnt = s.dropcnt)

/-- The `DROPCNT` output (R31): it shows the counter exactly where the counter exists; a receive move that reports a cause of
2 to 7 adds one modulo 2^32 to what it shows, reset makes it show 0, and no other move changes what it shows. That the counter
is a field behind the output, there or not, is log entry 7. -/
def Obligations.DropCounterOutput : Prop :=
  (∀ s : State, dropcntOut s = none ↔ Config.hasDropCounter = false)
  ∧ (∀ (s : State) (n : BitVec 32), dropcntOut s = some n → n = s.dropcnt)
  ∧ ∀ (s t : State) (m : Move) (ms : List Move), s.sched = m :: ms → step s = .next t →
    (m = .reset → ∀ n, dropcntOut t = some n → n = 0#32)
    ∧ (m = .receive → (∃ k, t.decCause = some k ∧ 2 ≤ k.toNat) → dropcntOut t = (dropcntOut s).map (· + 1#32))
    ∧ (m ≠ .reset → ¬(m = .receive ∧ ∃ k, t.decCause = some k ∧ 2 ≤ k.toNat) → dropcntOut t = dropcntOut s)

/-- The reset operation (R270): buffer, index and counter at their reset values, every pending output withdrawn. That the
characters, requests and moves the environment has yet to present stay as they are is the model's choice, log entry 6. -/
def Obligations.ResetOperation : Prop :=
  ∀ (s : State) (ms : List Move), s.sched = .reset :: ms →
    ∃ t, step s = .next t ∧ t.rxbuf = [] ∧ t.rxlen = 0#8 ∧ t.dropcnt = 0#32
      ∧ t.encLine = [] ∧ t.encErr = none ∧ t.frameReceived = []
      ∧ t.sched = ms ∧ t.rxIn = s.rxIn ∧ t.encIn = s.encIn

/-- The state after reset (R36). -/
def Obligations.StateAfterReset : Prop :=
  State.reset.rxbuf = [] ∧ State.reset.rxlen = 0#8 ∧ State.reset.dropcnt = 0#32
  ∧ State.reset.encLine = [] ∧ State.reset.encErr = none
  ∧ State.reset.frameReceived = [] ∧ State.reset.decCause = none

/-- Every step keeps the invariant: the line buffer's canonical form, at most one pending event, every pending event a frame
Decode can produce, every pending line one Encode can emit (R27, R135, R167, R236). -/
def Obligations.StepKeepsInvariant : Prop :=
  ∀ s t : State, s.inv = true → step s = .next t → t.inv = true

/-- The invariant holds after reset. -/
def Obligations.ResetMeetsInvariant : Prop := State.reset.inv = true

/-- Every operation is total (R12, R166): no instruction and no step ever stops the block. -/
def Obligations.EveryStepGoesOn : Prop :=
  (∀ (i : Instr) (s : State), ∃ t, exec i s = .next t) ∧ ∀ s : State, ∃ t, step s = .next t

/-- A receive move at a terminator runs the instruction the buffered line decodes to, with the buffer emptied; a line that
decodes to none is "not a frame" (R58, R94, R195). -/
def Obligations.StepRunsTheReceivedLine : Prop :=
  ∀ (s : State) (ms : List Move) (cs : List Byte),
    s.sched = .receive :: ms → s.frameReceived = [] → s.rxIn = 0x0D#8 :: cs →
    (∀ i, decode (.line s.rxbuf) = .ok i →
      step s = exec i { s with sched := ms, rxIn := cs, rxbuf := [], rxlen := 0#8 })
    ∧ (∀ e, decode (.line s.rxbuf) = .error e →
      step s = .next { s with sched := ms, rxIn := cs, rxbuf := [], rxlen := 0#8, decCause := some 1#3 })

/-- An encode move runs the instruction the first waiting request decodes to (R63, R121). That it does so in every state, a
line still pending included, is the model's choice, log entry 5. -/
def Obligations.StepRunsTheRequest : Prop :=
  ∀ (s : State) (ms : List Move) (q : Request) (qs : List Request) (i : Instr),
    s.sched = .encode :: ms → s.encIn = q :: qs → decode (.request q) = .ok i →
    step s = exec i { s with sched := ms, encIn := qs }

/-- With no move to come the block holds its state (R244). -/
def Obligations.IdleStepHoldsTheState : Prop :=
  ∀ s : State, s.sched = [] → step s = .next s
end

