-- ==== Sys2Proof/Laws/Operands.lean ====
section
/-! SUPPORT. The laws of the hex conversions, the length-code tables, the identifier field and the payload field. -/

namespace Sys2Proof.Machine

/-! ### Hex digits -/

/-- Decoding an encoded digit gives it back, for both values of the parameter. -/
@[simp] theorem hv_hc (lower : Bool) (v : Nibble) : hv lower (hc v) = some v := by
  revert v lower; decide

/-- Encode emits upper-case digits only: the parameter does not matter to them. -/
theorem hv_upper {c : Byte} {v : Nibble} (h : hv false c = some v) (lower : Bool) : hv lower c = some v := by
  revert c v lower; decide

/-- Without lower-case digits the parameter does not matter. -/
theorem hv_not_lower {c : Byte} (h : ¬(0x61#8 ≤ c ∧ c ≤ 0x66#8)) (lower : Bool) : hv lower c = hv false c := by
  simp [hv, h]

/-- A valid character is the upper-case digit of its value, or that digit's lower-case form. -/
theorem hc_of_hv {lower : Bool} {c : Byte} {v : Nibble} (h : hv lower c = some v) :
    hc v = if 0x61#8 ≤ c ∧ c ≤ 0x66#8 then c - 0x20#8 else c := by
  revert c v lower; decide

/-! ### Length codes -/

theorem l2c_c2l (c : Nibble) : l2c? (c2l c) = some c := by
  revert c; decide

theorem c2l_le (c : Nibble) : c2l c ≤ 64 := by
  revert c; decide

/-- `L2C` is defined exactly up to 64. -/
theorem l2c_isSome_iff (n : Nat) : (l2c? n).isSome = true ↔ n ≤ 64 := by
  have h64 : Config.maxFd = 64 := rfl
  unfold l2c?
  repeat' split
  all_goals simp
  all_goals omega

theorem l2c_eq_none_iff (n : Nat) : l2c? n = none ↔ 64 < n := by
  rw [← Option.not_isSome_iff_eq_none, l2c_isSome_iff]
  omega

/-- The code of a length stands for the upper end of the length's bucket. -/
theorem le_c2l {n : Nat} {c : Nibble} (h : l2c? n = some c) : n ≤ c2l c := by
  have hn : n ≤ 64 := (l2c_isSome_iff n).1 (by simp [h])
  have key : ∀ m : Fin 65, ∀ c : Nibble, l2c? m.val = some c → m.val ≤ c2l c := by decide
  exact key ⟨n, by omega⟩ c h

/-- A length has the code 0 only if it is 0. -/
theorem c2l_eq_zero {n : Nat} {c : Nibble} (h : l2c? n = some c) : c2l c = 0 ↔ n = 0 := by
  have hn : n ≤ 64 := (l2c_isSome_iff n).1 (by simp [h])
  have key : ∀ m : Fin 65, ∀ c : Nibble, l2c? m.val = some c → (c2l c = 0 ↔ m.val = 0) := by decide
  exact key ⟨n, by omega⟩ c h

/-! ### The identifier field -/

theorem idNibbles_length (id : BitVec 32) : (idNibbles id).length = 8 := rfl

theorem hexNum_map_hc (lower : Bool) (vs : List Nibble) (acc : Nat) :
    hexNum? lower acc (vs.map hc) = some (vs.foldl (fun a v => a * 16 + v.toNat) acc) := by
  induction vs generalizing acc with
  | nil => rfl
  | cons v vs ih => simp [hexNum?, ih]

theorem foldl_replicate_zero (n : Nat) :
    (List.replicate n 0#4).foldl (fun a v => a * 16 + v.toNat) 0 = 0 := by
  induction n with
  | zero => rfl
  | succ n ih => simpa [List.replicate_succ] using ih

theorem foldl_dropWhile_zero (vs : List Nibble) :
    (vs.dropWhile (· == 0#4)).foldl (fun a v => a * 16 + v.toNat) 0
      = vs.foldl (fun a v => a * 16 + v.toNat) 0 := by
  induction vs with
  | nil => rfl
  | cons v vs ih =>
    by_cases h : v = 0#4
    · subst h; simpa using ih
    · simp [h]

/-- The digits of an identifier stand for it. -/
theorem foldl_idNibbles (id : BitVec 32) : (idNibbles id).foldl (fun a v => a * 16 + v.toNat) 0 = id.toNat := by
  simp only [idNibbles, List.foldl_cons, List.foldl_nil, BitVec.extractLsb'_toNat, Nat.shiftRight_eq_div_pow]
  have := id.isLt
  omega

/-- Decoding an identifier field gives the identifier back, at whatever width. -/
theorem hexNum_hexMin (lower : Bool) (id : BitVec 32) (w : Nat) : hexNum? lower 0 (hexMin id w) = some id.toNat := by
  rw [hexMin, hexNum_map_hc, List.foldl_append, foldl_replicate_zero, foldl_dropWhile_zero, foldl_idNibbles]

/-- The digits of an identifier field: as many as it has characters, and they stand for the identifier. -/
theorem hexMin_digits (id : BitVec 32) (w : Nat) :
    ∃ us : List Nibble, hexMin id w = us.map hc ∧ us.foldl (fun a v => a * 16 + v.toNat) 0 = id.toNat :=
  ⟨_, rfl, by rw [List.foldl_append, foldl_replicate_zero, foldl_dropWhile_zero, foldl_idNibbles]⟩

/-- Every character of an identifier field is an upper-case digit. -/
theorem hexMin_upper {id : BitVec 32} {w : Nat} {c : Byte} (h : c ∈ hexMin id w) : ∃ v, c = hc v := by
  obtain ⟨v, -, rfl⟩ := List.mem_map.1 h
  exact ⟨v, rfl⟩

theorem hexMin_length (id : BitVec 32) (w : Nat) :
    (hexMin id w).length = max w ((idNibbles id).dropWhile (· == 0#4)).length := by
  simp only [hexMin, List.length_map, List.length_append, List.length_replicate]
  omega

/-- The number a sequence of digits stands for, continuing from `a`, lies where its digit count says. -/
theorem foldl_bounds (us : List Nibble) (a : Nat) :
    a * 16 ^ us.length ≤ us.foldl (fun a v => a * 16 + v.toNat) a
      ∧ us.foldl (fun a v => a * 16 + v.toNat) a < (a + 1) * 16 ^ us.length := by
  induction us generalizing a with
  | nil => simp
  | cons u us ih =>
    have hu := u.isLt
    obtain ⟨h1, h2⟩ := ih (a * 16 + u.toNat)
    simp only [List.foldl_cons, List.length_cons, pow_succ]
    constructor
    · calc a * (16 ^ us.length * 16) = (a * 16) * 16 ^ us.length := by ring
        _ ≤ (a * 16 + u.toNat) * 16 ^ us.length := Nat.mul_le_mul_right _ (by omega)
        _ ≤ _ := h1
    · calc _ < (a * 16 + u.toNat + 1) * 16 ^ us.length := h2
        _ ≤ (a * 16 + 16) * 16 ^ us.length := Nat.mul_le_mul_right _ (by omega)
        _ = (a + 1) * (16 ^ us.length * 16) := by ring

/-- Digit sequences of one length stand for different numbers when they differ. -/
theorem foldl_injective {us vs : List Nibble} (hl : us.length = vs.length) {a b : Nat}
    (h : us.foldl (fun a v => a * 16 + v.toNat) a = vs.foldl (fun a v => a * 16 + v.toNat) b) : a = b ∧ us = vs := by
  induction us generalizing vs a b with
  | nil =>
    have : vs = [] := List.length_eq_zero_iff.1 hl.symm
    subst this
    exact ⟨h, rfl⟩
  | cons u us ih =>
    cases vs with
    | nil => simp at hl
    | cons v vs =>
      simp only [List.foldl_cons] at h
      obtain ⟨h1, rfl⟩ := ih (by simpa using hl) h
      have hu := u.isLt
      have hv := v.isLt
      have : u = v := BitVec.eq_of_toNat_eq (by omega)
      subst this
      exact ⟨by omega, rfl⟩

theorem dropWhile_length_le_iff (vs : List Nibble) (k : Nat) :
    (vs.dropWhile (· == 0#4)).length ≤ k ↔ vs.foldl (fun a v => a * 16 + v.toNat) 0 < 16 ^ k := by
  induction vs with
  | nil => simp
  | cons v vs ih =>
    by_cases h : v = 0#4
    · subst h; simpa using ih
    · have hv : 1 ≤ v.toNat := by
        rcases Nat.eq_zero_or_pos v.toNat with h0 | h0
        · exact absurd (BitVec.eq_of_toNat_eq (by simpa using h0)) h
        · exact h0
      have hlt := v.isLt
      obtain ⟨h1, h2⟩ := foldl_bounds vs v.toNat
      simp only [List.dropWhile_cons, h, beq_iff_eq, if_false, List.length_cons, List.foldl_cons, Nat.zero_mul,
        Nat.zero_add]
      constructor
      · intro hk
        calc _ < (v.toNat + 1) * 16 ^ vs.length := h2
          _ ≤ 16 * 16 ^ vs.length := Nat.mul_le_mul_right _ (by omega)
          _ = 16 ^ (vs.length + 1) := by ring
          _ ≤ 16 ^ k := Nat.pow_le_pow_right (by omega) hk
      · intro hk
        by_contra hc
        have : 16 ^ k ≤ 16 ^ vs.length := Nat.pow_le_pow_right (by omega) (by omega)
        have : 16 ^ vs.length ≤ v.toNat * 16 ^ vs.length := Nat.le_mul_of_pos_left _ (by omega)
        omega

/-- The field fits `k` characters exactly when `k` is at least the width and the identifier needs no more digits. -/
theorem hexMin_length_le_iff (id : BitVec 32) {w k : Nat} (h : w ≤ k) :
    (hexMin id w).length ≤ k ↔ id.toNat < 16 ^ k := by
  rw [hexMin_length, ← foldl_idNibbles id, ← dropWhile_length_le_iff]
  omega

/-- An identifier that fits its width has a field of exactly that width. -/
theorem hexMin_length_eq (id : BitVec 32) {w : Nat} (h : id.toNat < 16 ^ w) : (hexMin id w).length = w := by
  have h1 := (hexMin_length_le_iff id (Nat.le_refl w)).2 h
  have h2 := hexMin_length id w
  omega

theorem hexMin_length_ext (id : BitVec 32) : (hexMin id 8).length = 8 :=
  hexMin_length_eq id (by have := id.isLt; omega)

theorem hexMin_length_le (id : BitVec 32) {w : Nat} (hw : w ≤ 8) : w ≤ (hexMin id w).length ∧ (hexMin id w).length ≤ 8 :=
  ⟨by rw [hexMin_length]; omega, (hexMin_length_le_iff id hw).2 (by have := id.isLt; omega)⟩

/-! ### The payload field -/

theorem payloadChars_length (data : List Byte) : (payloadChars data).length = 2 * data.length := by
  induction data with
  | nil => rfl
  | cons b bs ih => simp_all [payloadChars, byteChars]; omega

theorem payloadChars_upper {data : List Byte} {c : Byte} (h : c ∈ payloadChars data) : ∃ v, c = hc v := by
  obtain ⟨b, -, hb⟩ := List.mem_flatMap.1 h
  simp only [byteChars, List.mem_cons, List.not_mem_nil, or_false] at hb
  rcases hb with rfl | rfl <;> exact ⟨_, rfl⟩

theorem byte_of_nibbles (b : Byte) :
    BitVec.ofNat 8 ((b.extractLsb' 4 4).toNat * 16 + (b.extractLsb' 0 4).toNat) = b := by
  apply BitVec.eq_of_toNat_eq
  have := b.isLt
  simp only [BitVec.toNat_ofNat, BitVec.extractLsb'_toNat, Nat.shiftRight_eq_div_pow]
  omega

/-- Decoding payload characters gives the bytes back. -/
theorem hexBytes_payloadChars (lower : Bool) (data : List Byte) : hexBytes? lower (payloadChars data) = some data := by
  induction data with
  | nil => rfl
  | cons b bs ih =>
    simp only [payloadChars, List.flatMap_cons, byteChars, List.cons_append, List.nil_append] at *
    simp only [hexBytes?, hv_hc, ih, byte_of_nibbles]

theorem hexBytes_length {lower : Bool} : ∀ {cs : Line} {data : List Byte},
    hexBytes? lower cs = some data → cs.length = 2 * data.length
  | [], data, h => by cases h; rfl
  | [_], data, h => by cases h
  | x :: y :: rest, data, h => by
    simp only [hexBytes?] at h
    split at h
    · rename_i a b bs _ _ hr
      cases h
      have := hexBytes_length hr
      simp only [List.length_cons]
      omega
    · cases h

/-! ### Both values of the parameter -/

/-- A number field reads the same under two parameter values that agree on its characters. -/
theorem hexNum_congr {l1 l2 : Bool} {cs : Line} (h : ∀ c ∈ cs, hv l1 c = hv l2 c) (acc : Nat) :
    hexNum? l1 acc cs = hexNum? l2 acc cs := by
  induction cs generalizing acc with
  | nil => rfl
  | cons c cs ih =>
    simp only [hexNum?, h c (by simp)]
    split
    · exact ih (fun c hc => h c (by simp [hc])) _
    · rfl

/-- A payload field reads the same under two parameter values that agree on its characters. -/
theorem hexBytes_congr {l1 l2 : Bool} : ∀ {cs : Line} (_ : ∀ c ∈ cs, hv l1 c = hv l2 c),
    hexBytes? l1 cs = hexBytes? l2 cs
  | [], _ => rfl
  | [_], _ => rfl
  | x :: y :: rest, h => by
    simp only [hexBytes?, h x (by simp), h y (by simp), hexBytes_congr (cs := rest) (fun c hc => h c (by simp [hc]))]

/-- A number field that is well formed without lower-case digits has the same value with them allowed. -/
theorem hexNum_upper {cs : Line} {acc n : Nat} (h : hexNum? false acc cs = some n) (lower : Bool) :
    hexNum? lower acc cs = some n := by
  induction cs generalizing acc with
  | nil => exact h
  | cons c cs ih =>
    simp only [hexNum?] at h ⊢
    cases hc : hv false c with
    | none => simp [hc] at h
    | some v =>
      simp only [hc] at h
      simp only [hv_upper hc lower]
      exact ih h

/-- A payload field that is well formed without lower-case digits has the same bytes with them allowed. -/
theorem hexBytes_upper {lower : Bool} : ∀ {cs : Line} {data : List Byte} (_ : hexBytes? false cs = some data),
    hexBytes? lower cs = some data
  | [], _, h => h
  | [_], _, h => by cases h
  | x :: y :: rest, data, h => by
    simp only [hexBytes?] at h ⊢
    split at h
    · rename_i a b bs h1 h2 h3
      simp only [hv_upper h1 lower, hv_upper h2 lower, hexBytes_upper (lower := lower) h3]
      exact h
    · cases h

/-! ### The number of digits of an identifier -/

/-- An identifier needs as many hex digits as four-bit groups its binary form fills. -/
theorem significant_digits (id : BitVec 32) :
    ((idNibbles id).dropWhile (· == 0#4)).length = (Nat.size id.toNat + 3) / 4 := by
  have size (k : Nat) : (Nat.size id.toNat + 3) / 4 ≤ k ↔ id.toNat < 16 ^ k := by
    have h : (16 : Nat) ^ k = 2 ^ (4 * k) := by rw [pow_mul]; norm_num
    rw [h, ← Nat.size_le]
    omega
  apply Nat.le_antisymm
  · rw [dropWhile_length_le_iff, foldl_idNibbles, ← size]
  · rw [size, ← foldl_idNibbles id, ← dropWhile_length_le_iff]

/-- The field of a number of `w` digits is those digits. -/
theorem hexMin_of_digits {vs : List Nibble} {w : Nat} (hl : vs.length = w) (hw : w ≤ 8) :
    hexMin (BitVec.ofNat 32 (vs.foldl (fun a v => a * 16 + v.toNat) 0)) w = vs.map hc := by
  have hb := (foldl_bounds vs 0).2
  rw [hl] at hb
  have hp : 16 ^ w ≤ 16 ^ 8 := Nat.pow_le_pow_right (by omega) hw
  obtain ⟨us, h1, h2⟩ := hexMin_digits (BitVec.ofNat 32 (vs.foldl (fun a v => a * 16 + v.toNat) 0)) w
  have hn : (BitVec.ofNat 32 (vs.foldl (fun a v => a * 16 + v.toNat) 0)).toNat
      = vs.foldl (fun a v => a * 16 + v.toNat) 0 := by
    rw [BitVec.toNat_ofNat]
    apply Nat.mod_eq_of_lt
    omega
  rw [hn] at h2
  have hlen := hexMin_length_eq (BitVec.ofNat 32 (vs.foldl (fun a v => a * 16 + v.toNat) 0)) (w := w) (by rw [hn]; omega)
  rw [h1] at hlen ⊢
  obtain ⟨-, rfl⟩ := foldl_injective (by simp at hlen; omega) h2
  rfl

/-- The two characters of the byte two digits stand for are those digits. -/
theorem byteChars_of_nibbles (a b : Nibble) : byteChars (BitVec.ofNat 8 (a.toNat * 16 + b.toNat)) = [hc a, hc b] := by
  revert a b; decide

end Sys2Proof.Machine
end

