-- ==== Sys2Proof/Laws/State.lean ====
section
/-! SUPPORT. One lemma per field per state operation, so that no proof unfolds a record update. -/

namespace Sys2Proof.Machine

@[simp] theorem setSched_sched (ms : List Move) (s : State) : (setSched ms s).sched = ms := rfl
@[simp] theorem setSched_rxIn (ms : List Move) (s : State) : (setSched ms s).rxIn = s.rxIn := rfl
@[simp] theorem setSched_encIn (ms : List Move) (s : State) : (setSched ms s).encIn = s.encIn := rfl
@[simp] theorem setSched_rxbuf (ms : List Move) (s : State) : (setSched ms s).rxbuf = s.rxbuf := rfl
@[simp] theorem setSched_rxlen (ms : List Move) (s : State) : (setSched ms s).rxlen = s.rxlen := rfl
@[simp] theorem setSched_dropcnt (ms : List Move) (s : State) : (setSched ms s).dropcnt = s.dropcnt := rfl
@[simp] theorem setSched_decCause (ms : List Move) (s : State) : (setSched ms s).decCause = s.decCause := rfl
@[simp] theorem setSched_frameReceived (ms : List Move) (s : State) : (setSched ms s).frameReceived = s.frameReceived := rfl
@[simp] theorem setSched_encLine (ms : List Move) (s : State) : (setSched ms s).encLine = s.encLine := rfl
@[simp] theorem setSched_encErr (ms : List Move) (s : State) : (setSched ms s).encErr = s.encErr := rfl

@[simp] theorem setRxIn_sched (cs : List Byte) (s : State) : (setRxIn cs s).sched = s.sched := rfl
@[simp] theorem setRxIn_rxIn (cs : List Byte) (s : State) : (setRxIn cs s).rxIn = cs := rfl
@[simp] theorem setRxIn_encIn (cs : List Byte) (s : State) : (setRxIn cs s).encIn = s.encIn := rfl
@[simp] theorem setRxIn_rxbuf (cs : List Byte) (s : State) : (setRxIn cs s).rxbuf = s.rxbuf := rfl
@[simp] theorem setRxIn_rxlen (cs : List Byte) (s : State) : (setRxIn cs s).rxlen = s.rxlen := rfl
@[simp] theorem setRxIn_dropcnt (cs : List Byte) (s : State) : (setRxIn cs s).dropcnt = s.dropcnt := rfl
@[simp] theorem setRxIn_decCause (cs : List Byte) (s : State) : (setRxIn cs s).decCause = s.decCause := rfl
@[simp] theorem setRxIn_frameReceived (cs : List Byte) (s : State) : (setRxIn cs s).frameReceived = s.frameReceived := rfl
@[simp] theorem setRxIn_encLine (cs : List Byte) (s : State) : (setRxIn cs s).encLine = s.encLine := rfl
@[simp] theorem setRxIn_encErr (cs : List Byte) (s : State) : (setRxIn cs s).encErr = s.encErr := rfl

@[simp] theorem setEncIn_sched (qs : List Request) (s : State) : (setEncIn qs s).sched = s.sched := rfl
@[simp] theorem setEncIn_rxIn (qs : List Request) (s : State) : (setEncIn qs s).rxIn = s.rxIn := rfl
@[simp] theorem setEncIn_encIn (qs : List Request) (s : State) : (setEncIn qs s).encIn = qs := rfl
@[simp] theorem setEncIn_rxbuf (qs : List Request) (s : State) : (setEncIn qs s).rxbuf = s.rxbuf := rfl
@[simp] theorem setEncIn_rxlen (qs : List Request) (s : State) : (setEncIn qs s).rxlen = s.rxlen := rfl
@[simp] theorem setEncIn_dropcnt (qs : List Request) (s : State) : (setEncIn qs s).dropcnt = s.dropcnt := rfl
@[simp] theorem setEncIn_decCause (qs : List Request) (s : State) : (setEncIn qs s).decCause = s.decCause := rfl
@[simp] theorem setEncIn_frameReceived (qs : List Request) (s : State) : (setEncIn qs s).frameReceived = s.frameReceived := rfl
@[simp] theorem setEncIn_encLine (qs : List Request) (s : State) : (setEncIn qs s).encLine = s.encLine := rfl
@[simp] theorem setEncIn_encErr (qs : List Request) (s : State) : (setEncIn qs s).encErr = s.encErr := rfl

@[simp] theorem storeChar_sched (c : Byte) (s : State) : (storeChar c s).sched = s.sched := rfl
@[simp] theorem storeChar_rxIn (c : Byte) (s : State) : (storeChar c s).rxIn = s.rxIn := rfl
@[simp] theorem storeChar_encIn (c : Byte) (s : State) : (storeChar c s).encIn = s.encIn := rfl
@[simp] theorem storeChar_rxbuf (c : Byte) (s : State) :
    (storeChar c s).rxbuf = if hasRoom s then append s.rxbuf [c] else s.rxbuf := rfl
@[simp] theorem storeChar_rxlen (c : Byte) (s : State) :
    (storeChar c s).rxlen = if hasRoom s then s.rxlen + 1#8 else s.rxlen := rfl
@[simp] theorem storeChar_dropcnt (c : Byte) (s : State) : (storeChar c s).dropcnt = s.dropcnt := rfl
@[simp] theorem storeChar_decCause (c : Byte) (s : State) : (storeChar c s).decCause = s.decCause := rfl
@[simp] theorem storeChar_frameReceived (c : Byte) (s : State) : (storeChar c s).frameReceived = s.frameReceived := rfl
@[simp] theorem storeChar_encLine (c : Byte) (s : State) : (storeChar c s).encLine = s.encLine := rfl
@[simp] theorem storeChar_encErr (c : Byte) (s : State) : (storeChar c s).encErr = s.encErr := rfl

@[simp] theorem clearLine_sched (s : State) : (clearLine s).sched = s.sched := rfl
@[simp] theorem clearLine_rxIn (s : State) : (clearLine s).rxIn = s.rxIn := rfl
@[simp] theorem clearLine_encIn (s : State) : (clearLine s).encIn = s.encIn := rfl
@[simp] theorem clearLine_rxbuf (s : State) : (clearLine s).rxbuf = [] := rfl
@[simp] theorem clearLine_rxlen (s : State) : (clearLine s).rxlen = 0#8 := rfl
@[simp] theorem clearLine_dropcnt (s : State) : (clearLine s).dropcnt = s.dropcnt := rfl
@[simp] theorem clearLine_decCause (s : State) : (clearLine s).decCause = s.decCause := rfl
@[simp] theorem clearLine_frameReceived (s : State) : (clearLine s).frameReceived = s.frameReceived := rfl
@[simp] theorem clearLine_encLine (s : State) : (clearLine s).encLine = s.encLine := rfl
@[simp] theorem clearLine_encErr (s : State) : (clearLine s).encErr = s.encErr := rfl

@[simp] theorem noCause_sched (s : State) : (noCause s).sched = s.sched := rfl
@[simp] theorem noCause_rxIn (s : State) : (noCause s).rxIn = s.rxIn := rfl
@[simp] theorem noCause_encIn (s : State) : (noCause s).encIn = s.encIn := rfl
@[simp] theorem noCause_rxbuf (s : State) : (noCause s).rxbuf = s.rxbuf := rfl
@[simp] theorem noCause_rxlen (s : State) : (noCause s).rxlen = s.rxlen := rfl
@[simp] theorem noCause_dropcnt (s : State) : (noCause s).dropcnt = s.dropcnt := rfl
@[simp] theorem noCause_decCause (s : State) : (noCause s).decCause = none := rfl
@[simp] theorem noCause_frameReceived (s : State) : (noCause s).frameReceived = s.frameReceived := rfl
@[simp] theorem noCause_encLine (s : State) : (noCause s).encLine = s.encLine := rfl
@[simp] theorem noCause_encErr (s : State) : (noCause s).encErr = s.encErr := rfl

@[simp] theorem recordDrop_sched (c : DropCause) (s : State) : (recordDrop c s).sched = s.sched := rfl
@[simp] theorem recordDrop_rxIn (c : DropCause) (s : State) : (recordDrop c s).rxIn = s.rxIn := rfl
@[simp] theorem recordDrop_encIn (c : DropCause) (s : State) : (recordDrop c s).encIn = s.encIn := rfl
@[simp] theorem recordDrop_rxbuf (c : DropCause) (s : State) : (recordDrop c s).rxbuf = s.rxbuf := rfl
@[simp] theorem recordDrop_rxlen (c : DropCause) (s : State) : (recordDrop c s).rxlen = s.rxlen := rfl
@[simp] theorem recordDrop_dropcnt (c : DropCause) (s : State) : (recordDrop c s).dropcnt = countDrop c s.dropcnt := rfl
@[simp] theorem recordDrop_decCause (c : DropCause) (s : State) : (recordDrop c s).decCause = some c.code := rfl
@[simp] theorem recordDrop_frameReceived (c : DropCause) (s : State) : (recordDrop c s).frameReceived = s.frameReceived := rfl
@[simp] theorem recordDrop_encLine (c : DropCause) (s : State) : (recordDrop c s).encLine = s.encLine := rfl
@[simp] theorem recordDrop_encErr (c : DropCause) (s : State) : (recordDrop c s).encErr = s.encErr := rfl

@[simp] theorem deliver_sched (ch : Chan) (f : Frame) (s : State) : (deliver ch f s).sched = s.sched := rfl
@[simp] theorem deliver_rxIn (ch : Chan) (f : Frame) (s : State) : (deliver ch f s).rxIn = s.rxIn := rfl
@[simp] theorem deliver_encIn (ch : Chan) (f : Frame) (s : State) : (deliver ch f s).encIn = s.encIn := rfl
@[simp] theorem deliver_rxbuf (ch : Chan) (f : Frame) (s : State) : (deliver ch f s).rxbuf = s.rxbuf := rfl
@[simp] theorem deliver_rxlen (ch : Chan) (f : Frame) (s : State) : (deliver ch f s).rxlen = s.rxlen := rfl
@[simp] theorem deliver_dropcnt (ch : Chan) (f : Frame) (s : State) : (deliver ch f s).dropcnt = s.dropcnt := rfl
@[simp] theorem deliver_decCause (ch : Chan) (f : Frame) (s : State) : (deliver ch f s).decCause = some 0#3 := rfl
@[simp] theorem deliver_frameReceived (ch : Chan) (f : Frame) (s : State) : (deliver ch f s).frameReceived = s.frameReceived ++ [⟨ch, f⟩] := rfl
@[simp] theorem deliver_encLine (ch : Chan) (f : Frame) (s : State) : (deliver ch f s).encLine = s.encLine := rfl
@[simp] theorem deliver_encErr (ch : Chan) (f : Frame) (s : State) : (deliver ch f s).encErr = s.encErr := rfl

@[simp] theorem recordError_sched (e : EncError) (s : State) : (recordError e s).sched = s.sched := rfl
@[simp] theorem recordError_rxIn (e : EncError) (s : State) : (recordError e s).rxIn = s.rxIn := rfl
@[simp] theorem recordError_encIn (e : EncError) (s : State) : (recordError e s).encIn = s.encIn := rfl
@[simp] theorem recordError_rxbuf (e : EncError) (s : State) : (recordError e s).rxbuf = s.rxbuf := rfl
@[simp] theorem recordError_rxlen (e : EncError) (s : State) : (recordError e s).rxlen = s.rxlen := rfl
@[simp] theorem recordError_dropcnt (e : EncError) (s : State) : (recordError e s).dropcnt = s.dropcnt := rfl
@[simp] theorem recordError_decCause (e : EncError) (s : State) : (recordError e s).decCause = s.decCause := rfl
@[simp] theorem recordError_frameReceived (e : EncError) (s : State) : (recordError e s).frameReceived = s.frameReceived := rfl
@[simp] theorem recordError_encLine (e : EncError) (s : State) : (recordError e s).encLine = s.encLine := rfl
@[simp] theorem recordError_encErr (e : EncError) (s : State) : (recordError e s).encErr = some e.code := rfl

@[simp] theorem emitLine_sched (l : Line) (s : State) : (emitLine l s).sched = s.sched := rfl
@[simp] theorem emitLine_rxIn (l : Line) (s : State) : (emitLine l s).rxIn = s.rxIn := rfl
@[simp] theorem emitLine_encIn (l : Line) (s : State) : (emitLine l s).encIn = s.encIn := rfl
@[simp] theorem emitLine_rxbuf (l : Line) (s : State) : (emitLine l s).rxbuf = s.rxbuf := rfl
@[simp] theorem emitLine_rxlen (l : Line) (s : State) : (emitLine l s).rxlen = s.rxlen := rfl
@[simp] theorem emitLine_dropcnt (l : Line) (s : State) : (emitLine l s).dropcnt = s.dropcnt := rfl
@[simp] theorem emitLine_decCause (l : Line) (s : State) : (emitLine l s).decCause = s.decCause := rfl
@[simp] theorem emitLine_frameReceived (l : Line) (s : State) : (emitLine l s).frameReceived = s.frameReceived := rfl
@[simp] theorem emitLine_encLine (l : Line) (s : State) : (emitLine l s).encLine = s.encLine ++ [l] := rfl
@[simp] theorem emitLine_encErr (l : Line) (s : State) : (emitLine l s).encErr = some 0#2 := rfl

@[simp] theorem noError_sched (s : State) : (noError s).sched = s.sched := rfl
@[simp] theorem noError_rxIn (s : State) : (noError s).rxIn = s.rxIn := rfl
@[simp] theorem noError_encIn (s : State) : (noError s).encIn = s.encIn := rfl
@[simp] theorem noError_rxbuf (s : State) : (noError s).rxbuf = s.rxbuf := rfl
@[simp] theorem noError_rxlen (s : State) : (noError s).rxlen = s.rxlen := rfl
@[simp] theorem noError_dropcnt (s : State) : (noError s).dropcnt = s.dropcnt := rfl
@[simp] theorem noError_decCause (s : State) : (noError s).decCause = s.decCause := rfl
@[simp] theorem noError_frameReceived (s : State) : (noError s).frameReceived = s.frameReceived := rfl
@[simp] theorem noError_encLine (s : State) : (noError s).encLine = s.encLine := rfl
@[simp] theorem noError_encErr (s : State) : (noError s).encErr = none := rfl

@[simp] theorem takeEvent_sched (s : State) : (takeEvent s).sched = s.sched := rfl
@[simp] theorem takeEvent_rxIn (s : State) : (takeEvent s).rxIn = s.rxIn := rfl
@[simp] theorem takeEvent_encIn (s : State) : (takeEvent s).encIn = s.encIn := rfl
@[simp] theorem takeEvent_rxbuf (s : State) : (takeEvent s).rxbuf = s.rxbuf := rfl
@[simp] theorem takeEvent_rxlen (s : State) : (takeEvent s).rxlen = s.rxlen := rfl
@[simp] theorem takeEvent_dropcnt (s : State) : (takeEvent s).dropcnt = s.dropcnt := rfl
@[simp] theorem takeEvent_decCause (s : State) : (takeEvent s).decCause = s.decCause := rfl
@[simp] theorem takeEvent_frameReceived (s : State) : (takeEvent s).frameReceived = s.frameReceived.tail := rfl
@[simp] theorem takeEvent_encLine (s : State) : (takeEvent s).encLine = s.encLine := rfl
@[simp] theorem takeEvent_encErr (s : State) : (takeEvent s).encErr = s.encErr := rfl

@[simp] theorem takeLine_sched (s : State) : (takeLine s).sched = s.sched := rfl
@[simp] theorem takeLine_rxIn (s : State) : (takeLine s).rxIn = s.rxIn := rfl
@[simp] theorem takeLine_encIn (s : State) : (takeLine s).encIn = s.encIn := rfl
@[simp] theorem takeLine_rxbuf (s : State) : (takeLine s).rxbuf = s.rxbuf := rfl
@[simp] theorem takeLine_rxlen (s : State) : (takeLine s).rxlen = s.rxlen := rfl
@[simp] theorem takeLine_dropcnt (s : State) : (takeLine s).dropcnt = s.dropcnt := rfl
@[simp] theorem takeLine_decCause (s : State) : (takeLine s).decCause = s.decCause := rfl
@[simp] theorem takeLine_frameReceived (s : State) : (takeLine s).frameReceived = s.frameReceived := rfl
@[simp] theorem takeLine_encLine (s : State) : (takeLine s).encLine = s.encLine.tail := rfl
@[simp] theorem takeLine_encErr (s : State) : (takeLine s).encErr = s.encErr := rfl

@[simp] theorem applyReset_sched (s : State) : (applyReset s).sched = s.sched := rfl
@[simp] theorem applyReset_rxIn (s : State) : (applyReset s).rxIn = s.rxIn := rfl
@[simp] theorem applyReset_encIn (s : State) : (applyReset s).encIn = s.encIn := rfl
@[simp] theorem applyReset_rxbuf (s : State) : (applyReset s).rxbuf = [] := rfl
@[simp] theorem applyReset_rxlen (s : State) : (applyReset s).rxlen = 0#8 := rfl
@[simp] theorem applyReset_dropcnt (s : State) : (applyReset s).dropcnt = 0#32 := rfl
@[simp] theorem applyReset_decCause (s : State) : (applyReset s).decCause = none := rfl
@[simp] theorem applyReset_frameReceived (s : State) : (applyReset s).frameReceived = [] := rfl
@[simp] theorem applyReset_encLine (s : State) : (applyReset s).encLine = [] := rfl
@[simp] theorem applyReset_encErr (s : State) : (applyReset s).encErr = none := rfl

end Sys2Proof.Machine
end

