-- ==== Sys2Proof/Laws/Ops.lean ====
section
/-! SUPPORT. What each operation over the line space does, and that every operation on the receive line buffer keeps its
canonical form. -/

namespace Sys2Proof.Machine

@[simp] theorem lineMax_eq : Config.lineMax = 139 := rfl

theorem append_eq (buf v : Line) : append buf v = buf ++ v := by
  simp [append, memWrite]

theorem memRead_eq_some {buf r : Line} {a n : Nat} (h : memRead buf a n = some r) :
    a + n ≤ buf.length ∧ r = (buf.drop a).take n := by
  unfold memRead at h
  split at h
  · exact ⟨‹_›, (Option.some.inj h).symm⟩
  · cases h

theorem memRead_eq_none {buf : Line} {a n : Nat} : memRead buf a n = none ↔ buf.length < a + n := by
  unfold memRead
  split <;> simp <;> omega

theorem memRead_of_le {buf : Line} {a n : Nat} (h : a + n ≤ buf.length) :
    memRead buf a n = some ((buf.drop a).take n) := if_pos h

/-- Reading what was just appended gives it back. -/
theorem memRead_append_new (buf v : Line) : memRead (append buf v) buf.length v.length = some v := by
  rw [append_eq, memRead_of_le (by simp)]
  simp

/-- Appending changes no character already there. -/
theorem memRead_append_old (buf v : Line) {a n : Nat} (h : a + n ≤ buf.length) :
    memRead (append buf v) a n = memRead buf a n := by
  rw [append_eq, memRead_of_le h, memRead_of_le (by simp; omega), List.drop_append_of_le_length (by omega),
    List.take_append_of_le_length (by simp; omega)]

/-- The canonical form of the line buffer, as a proposition. -/
theorem wf_iff (s : State) : Memory.wf s = true ↔
    s.rxlen.toNat = s.rxbuf.length ∧ s.rxbuf.length ≤ 139 ∧ Config.lineTerm ∉ s.rxbuf := by
  simp only [Memory.wf, Bool.and_eq_true, beq_iff_eq, decide_eq_true_eq, List.all_eq_true, bne_iff_ne, lineMax_eq]
  constructor
  · rintro ⟨⟨h1, h2⟩, h3⟩
    exact ⟨h1, h2, fun hm => h3 _ hm rfl⟩
  · rintro ⟨h1, h2, h3⟩
    exact ⟨⟨h1, h2⟩, fun c hc he => h3 (he ▸ hc)⟩

theorem wf_of_eq {s t : State} (hb : t.rxbuf = s.rxbuf) (hl : t.rxlen = s.rxlen) : Memory.wf t = Memory.wf s := by
  simp [Memory.wf, hb, hl]

/-- Storing a character that is no terminator keeps the canonical form. -/
theorem storeChar_wf {s : State} {c : Byte} (hc : c ≠ Config.lineTerm) (h : Memory.wf s = true) :
    Memory.wf (storeChar c s) = true := by
  rw [wf_iff] at h ⊢
  obtain ⟨h1, h2, h3⟩ := h
  by_cases hr : hasRoom s = true
  · have hlt : s.rxlen.toNat < 139 := by simpa [hasRoom] using hr
    simp only [storeChar_rxlen, storeChar_rxbuf, hr, if_true, append_eq, List.length_append, List.length_singleton,
      List.mem_append, List.mem_singleton, not_or]
    refine ⟨?_, by omega, h3, fun he => hc he.symm⟩
    simp only [BitVec.toNat_add, BitVec.toNat_ofNat]
    omega
  · simp only [storeChar_rxlen, storeChar_rxbuf, hr]
    exact ⟨h1, h2, h3⟩

theorem clearLine_wf (s : State) : Memory.wf (clearLine s) = true := by
  simp [Memory.wf]

theorem reset_wf : Memory.wf State.reset = true := by decide

theorem countDrop_notFrame (n : BitVec 32) : countDrop .notFrame n = n := by
  simp [countDrop, DropCause.code]

theorem countDrop_other {c : DropCause} (h : c ≠ .notFrame) (n : BitVec 32) :
    countDrop c n = if Config.hasDropCounter then n + 1#32 else n := by
  cases c <;> simp_all [countDrop, DropCause.code]

/-- The output shows the counter where it exists (R31). -/
theorem dropcntOut_present (h : Config.hasDropCounter = true) (s : State) : dropcntOut s = some s.dropcnt := by
  simp [dropcntOut, h]

/-- The output shows nothing where the counter does not exist (R31). -/
theorem dropcntOut_absent (h : Config.hasDropCounter = false) (s : State) : dropcntOut s = none := by
  simp [dropcntOut, h]

/-- Where the counter does not exist no drop counts (R31). -/
theorem countDrop_absent (h : Config.hasDropCounter = false) (c : DropCause) (n : BitVec 32) : countDrop c n = n := by
  simp [countDrop, h]

/-- A drop as "not a frame" counts nothing. -/
theorem recordDrop_notFrame (s : State) : recordDrop .notFrame s = { s with decCause := some 1#3 } := by
  simp [recordDrop, countDrop_notFrame, DropCause.code]

/-- A character that is stored or discarded leaves every character already in the buffer as it was. -/
theorem storeChar_reads {s : State} (c : Byte) {a n : Nat} (h : a + n ≤ s.rxbuf.length) :
    memRead (storeChar c s).rxbuf a n = memRead s.rxbuf a n := by
  rw [storeChar_rxbuf]
  split
  · exact memRead_append_old _ _ h
  · rfl

end Sys2Proof.Machine
end

