-- ==== Sys2Proof/Laws/Codec.lean ====
section
/-! SUPPORT. What ENC and DEC compute: the inversion of `decodeAs`, the shape of what `encodeAs` emits, and decoding of what
was encoded. -/

namespace Sys2Proof.Machine

/-! ### Fields of hex digits -/

/-- A number field is malformed exactly when one of its characters is. -/
theorem hexNum_eq_none_iff (lower : Bool) (cs : Line) (acc : Nat) :
    hexNum? lower acc cs = none ↔ ∃ c ∈ cs, hv lower c = none := by
  induction cs generalizing acc with
  | nil => simp [hexNum?]
  | cons c cs ih =>
    cases h : hv lower c with
    | none => simp [hexNum?, h]
    | some v => simp [hexNum?, h, ih]

/-- The value of a number field whose characters have the values `vs`. -/
theorem hexNum_of_values {lower : Bool} {cs : Line} {vs : List Nibble} (h : cs.map (hv lower) = vs.map some) (acc : Nat) :
    hexNum? lower acc cs = some (vs.foldl (fun a v => a * 16 + v.toNat) acc) := by
  induction cs generalizing vs acc with
  | nil => cases vs <;> simp_all [hexNum?]
  | cons c cs ih =>
    cases vs with
    | nil => simp at h
    | cons v vs =>
      simp only [List.map_cons, List.cons.injEq] at h
      simp [hexNum?, h.1, ih h.2]

/-- Every character of a well-formed number field has a value. -/
theorem values_of_hexNum {lower : Bool} {cs : Line} {acc n : Nat} (h : hexNum? lower acc cs = some n) :
    ∃ vs : List Nibble, cs.map (hv lower) = vs.map some := by
  induction cs generalizing acc with
  | nil => exact ⟨[], rfl⟩
  | cons c cs ih =>
    cases hc : hv lower c with
    | none => simp [hexNum?, hc] at h
    | some v =>
      simp only [hexNum?, hc] at h
      obtain ⟨vs, hvs⟩ := ih h
      exact ⟨v :: vs, by simp [hc, hvs]⟩

/-- A number field of `k` characters stands for a number below `16 ^ k`. -/
theorem hexNum_lt {lower : Bool} {cs : Line} {n : Nat} (h : hexNum? lower 0 cs = some n) : n < 16 ^ cs.length := by
  obtain ⟨vs, hvs⟩ := values_of_hexNum h
  rw [hexNum_of_values hvs] at h
  have hl : cs.length = vs.length := by simpa using congrArg List.length hvs
  have := (foldl_bounds vs 0).2
  rw [hl, ← Option.some.inj h]
  simpa using this

/-- A payload field of whole bytes is malformed exactly when one of its characters is. -/
theorem hexBytes_eq_none_iff (lower : Bool) : ∀ (n : Nat) (cs : Line), cs.length = 2 * n →
    (hexBytes? lower cs = none ↔ ∃ c ∈ cs, hv lower c = none)
  | 0, cs, h => by
    have : cs = [] := List.length_eq_zero_iff.1 (by omega)
    simp [this, hexBytes?]
  | n + 1, cs, h => by
    match cs, h with
    | x :: y :: rest, h =>
      have ih := hexBytes_eq_none_iff lower n rest (by simp only [List.length_cons] at h; omega)
      cases hx : hv lower x <;> cases hy : hv lower y <;> cases hr : hexBytes? lower rest <;>
        simp_all [hexBytes?]
    | [_], h => simp at h; omega

/-- The values of the characters of a payload field, byte by byte. -/
theorem hexBytes_getElem? {lower : Bool} : ∀ {cs : Line} {data : List Byte}, hexBytes? lower cs = some data →
    ∀ i < data.length, ∃ a b, (cs[2 * i]?).bind (hv lower) = some a ∧ (cs[2 * i + 1]?).bind (hv lower) = some b
      ∧ data[i]? = some (BitVec.ofNat 8 (a.toNat * 16 + b.toNat))
  | [], data, h, i, hi => by cases h; simp at hi
  | [_], data, h, i, hi => by cases h
  | x :: y :: rest, data, h, i, hi => by
    simp only [hexBytes?] at h
    split at h
    · rename_i a b bs ha hb hr
      cases h
      cases i with
      | zero => exact ⟨a, b, by simpa using ha, by simpa using hb, rfl⟩
      | succ i =>
        obtain ⟨a', b', h1, h2, h3⟩ := hexBytes_getElem? hr i (by simpa using hi)
        exact ⟨a', b', by simpa [Nat.mul_add] using h1, by simpa [Nat.mul_add] using h2, by simpa using h3⟩
    · cases h

/-! ### Fields by index -/

/-- The characters of a slice are those at its indices. -/
theorem mem_slice {s : Line} {a n : Nat} {c : Byte} :
    c ∈ (s.drop a).take n ↔ ∃ q, a ≤ q ∧ q < a + n ∧ s[q]? = some c := by
  rw [List.mem_iff_getElem?]
  constructor
  · rintro ⟨i, hi⟩
    rw [List.getElem?_take] at hi
    split at hi
    · rw [List.getElem?_drop] at hi
      exact ⟨a + i, by omega, by omega, hi⟩
    · cases hi
  · rintro ⟨q, h1, h2, h3⟩
    refine ⟨q - a, ?_⟩
    rw [List.getElem?_take, if_pos (by omega), List.getElem?_drop, ← h3]
    congr 1
    omega

/-- A slice that lies within a line reads the same when characters follow the line. -/
theorem slice_append {s t : Line} {a n : Nat} (h : a + n ≤ s.length) :
    ((s ++ t).drop a).take n = (s.drop a).take n := by
  rw [List.drop_append_of_le_length (by omega), List.take_append_of_le_length (by simp; omega)]

theorem hexAt_ne_none {lower : Bool} {s : Line} {q : Nat} :
    hexAt lower s q ≠ none ↔ ∃ c v, s[q]? = some c ∧ hv lower c = some v := by
  unfold hexAt
  cases h : s[q]? with
  | none => simp
  | some c => cases h2 : hv lower c <;> simp [h2]

/-- A slice has an invalid character exactly when one of its indices holds one. -/
theorem slice_invalid_iff {lower : Bool} {s : Line} {a n : Nat} (hl : a + n ≤ s.length) :
    (∃ c ∈ (s.drop a).take n, hv lower c = none) ↔ ∃ q, a ≤ q ∧ q < a + n ∧ hexAt lower s q = none := by
  constructor
  · rintro ⟨c, hc, hn⟩
    obtain ⟨q, h1, h2, h3⟩ := mem_slice.1 hc
    exact ⟨q, h1, h2, by simp [hexAt, h3, hn]⟩
  · rintro ⟨q, h1, h2, h3⟩
    have hq : q < s.length := by omega
    refine ⟨s[q], mem_slice.2 ⟨q, h1, h2, by simp [hq]⟩, ?_⟩
    simpa [hexAt, hq] using h3

/-- The values of a slice whose indices hold the digits `v`. -/
theorem slice_values {lower : Bool} {s : Line} {v : Nat → Nibble} {a n : Nat}
    (h : ∀ q, a ≤ q → q < a + n → hexAt lower s q = some (v q)) :
    ((s.drop a).take n).map (hv lower) = ((List.range n).map (fun k => v (a + k))).map some := by
  apply List.ext_getElem?
  intro i
  by_cases hi : i < n
  · have := h (a + i) (by omega) (by omega)
    simp only [List.getElem?_map, List.getElem?_take, hi, if_true, List.getElem?_drop, List.getElem?_range hi,
      Option.map_some]
    unfold hexAt at this
    cases hs : s[a + i]? with
    | none => simp [hs] at this
    | some c => simpa [hs] using this
  · rw [List.getElem?_eq_none (by simp; omega), List.getElem?_eq_none (by simp; omega)]

/-- Reading digits one after another is the positional sum of R88. -/
theorem foldl_eq_sum (v : Nat → Nibble) (n : Nat) :
    ((List.range n).map v).foldl (fun a x => a * 16 + x.toNat) 0
      = ∑ k ∈ Finset.range n, (v k).toNat * 16 ^ (n - 1 - k) := by
  induction n with
  | zero => rfl
  | succ n ih =>
    rw [List.range_succ, List.map_append, List.foldl_append, ih, Finset.sum_range_succ]
    simp only [List.map_cons, List.map_nil, List.foldl_cons, List.foldl_nil, Finset.sum_mul]
    congr 1
    · apply Finset.sum_congr rfl
      intro k hk
      have := Finset.mem_range.1 hk
      rw [show n + 1 - 1 - k = (n - 1 - k) + 1 by omega, pow_succ]
      ring
    · simp

/-- The bytes of a payload field whose digits are `v`. -/
theorem hexBytes_values {lower : Bool} {v : Nat → Nibble} : ∀ (n : Nat) (cs : Line),
    cs.map (hv lower) = ((List.range (2 * n)).map v).map some →
    hexBytes? lower cs
      = some ((List.range n).map (fun i => BitVec.ofNat 8 ((v (2 * i)).toNat * 16 + (v (2 * i + 1)).toNat)))
  | 0, cs, h => by
    have : cs = [] := by simpa using h
    simp [this, hexBytes?]
  | n + 1, cs, h => by
    rw [show 2 * (n + 1) = (2 * n + 1) + 1 by omega, List.range_succ_eq_map, List.range_succ_eq_map] at h
    match cs, h with
    | x :: y :: rest, h =>
      simp only [List.map_cons, List.cons.injEq] at h
      have ih := hexBytes_values (v := fun k => v (k + 2)) n rest (by
        rw [h.2.2]; simp [List.map_map, Function.comp_def])
      simp only [hexBytes?, h.1, h.2.1, ih, List.range_succ_eq_map, List.map_cons, List.map_map]
      simp [Function.comp_def, Nat.mul_succ]
    | [_], h => simp at h
    | [], h => simp at h

/-! ### DEC -/

/-- Everything a decode that delivers a frame has checked and computed. -/
theorem decodeAs_eq_frame {row : FrameRow} {lower : Bool} {s : Line} {f : Frame}
    (h : decodeAs row lower s = .frame f) :
    ∃ id c code data, 1 + row.idWidth < s.length
      ∧ hexNum? lower 0 ((s.drop 1).take row.idWidth) = some id
      ∧ s[1 + row.idWidth]? = some c ∧ hv lower c = some code
      ∧ f = row.frame id data (c2l code)
      ∧ ((row.rtr = true ∨ c2l code = 0) ∧ data = []
        ∨ row.rtr = false ∧ 2 + row.idWidth + 2 * c2l code ≤ s.length
          ∧ hexBytes? lower ((s.drop (2 + row.idWidth)).take (2 * c2l code)) = some data) := by
  unfold decodeAs at h
  split at h
  · cases h
  · rename_i ids hids
    obtain ⟨-, rfl⟩ := memRead_eq_some hids
    split at h
    · cases h
    · rename_i id hid
      unfold decodeCode at h
      split at h
      · cases h
      · rename_i c hc
        have hlt : 1 + row.idWidth < s.length := by
          by_contra hge
          rw [List.getElem?_eq_none (by omega)] at hc
          cases hc
        split at h
        · cases h
        · rename_i code hcode
          unfold decodePayload at h
          split at h
          · rename_i hz
            cases h
            exact ⟨id, c, code, [], hlt, hid, hc, hcode, rfl, .inl ⟨by simpa using hz, rfl⟩⟩
          · rename_i hz
            split at h
            · cases h
            · rename_i ps hps
              obtain ⟨hle, rfl⟩ := memRead_eq_some hps
              split at h
              · cases h
              · rename_i data hdata
                cases h
                refine ⟨id, c, code, data, hlt, hid, hc, hcode, rfl, .inr ⟨?_, hle, hdata⟩⟩
                have hz' : ¬(row.rtr = true ∨ c2l code = 0) := by simpa using hz
                simpa using (not_or.1 hz').1

/-- A decode with its identifier and length code read. -/
theorem decodeAs_of_header {row : FrameRow} {lower : Bool} {s : Line} {id : Nat} {c : Byte} {code : Nibble}
    (hid : hexNum? lower 0 ((s.drop 1).take row.idWidth) = some id) (hc : s[1 + row.idWidth]? = some c)
    (hcode : hv lower c = some code) : decodeAs row lower s = decodePayload row lower s id (c2l code) := by
  have hlt : 1 + row.idWidth < s.length := by
    by_contra hge
    rw [List.getElem?_eq_none (by omega)] at hc
    cases hc
  simp only [decodeAs, memRead_of_le (show 1 + row.idWidth ≤ s.length by omega), hid, decodeCode, hc, hcode]

/-- A decode that delivers a frame, from what it has to find. -/
theorem decodeAs_frame_of {row : FrameRow} {lower : Bool} {s : Line} {id : Nat} {c : Byte} {code : Nibble}
    {data : List Byte}
    (hid : hexNum? lower 0 ((s.drop 1).take row.idWidth) = some id) (hc : s[1 + row.idWidth]? = some c)
    (hcode : hv lower c = some code)
    (hp : (row.rtr = true ∨ c2l code = 0) ∧ data = []
      ∨ row.rtr = false ∧ 2 + row.idWidth + 2 * c2l code ≤ s.length
        ∧ hexBytes? lower ((s.drop (2 + row.idWidth)).take (2 * c2l code)) = some data) :
    decodeAs row lower s = .frame (row.frame id data (c2l code)) := by
  rw [decodeAs_of_header hid hc hcode]
  rcases hp with ⟨hz, rfl⟩ | ⟨hr, hle, hb⟩
  · have : (row.rtr || c2l code == 0) = true := by simpa using hz
    simp [decodePayload, this]
  · by_cases hz : c2l code = 0
    · simp only [hz, Nat.mul_zero, List.take_zero, hexBytes?, Option.some.injEq] at hb
      simp [decodePayload, hz, ← hb]
    · simp [decodePayload, hr, hz, memRead_of_le hle, hb]

/-- A decode never reports "not a frame": that is decided by the first character. -/
theorem decodeAs_ne_notFrame (row : FrameRow) (lower : Bool) (s : Line) : decodeAs row lower s ≠ .noFrame .notFrame := by
  unfold decodeAs decodeCode decodePayload
  repeat' split
  all_goals simp

/-- The lengths of the table are the boundary lengths. -/
theorem c2l_boundary (c : Nibble) : c2l c ∈ boundaryLengths := by
  revert c; decide

/-- No row combines `rtr` with `fd` or `brs`, or has `brs` without `fd` (R24). -/
theorem rows_conventional : ∀ row ∈ frameRows.map Prod.snd,
    (row.rtr = true → row.fd = false ∧ row.brs = false) ∧ (row.brs = true → row.fd = true) := by decide

/-- Every frame a row's decode delivers has the properties of R167. -/
theorem decodeAs_produced {row : FrameRow} (hrow : row ∈ frameRows.map Prod.snd) {lower : Bool} {s : Line} {f : Frame}
    (h : decodeAs row lower s = .frame f) : producedFrame f = true := by
  obtain ⟨id, c, code, data, -, hid, -, -, rfl, hp⟩ := decodeAs_eq_frame h
  have hrows := rows_conventional row hrow
  have hidlt := hexNum_lt hid
  have hc := c2l_boundary code
  have hle := c2l_le code
  have hdlc : (c2l code) % 128 = c2l code := Nat.mod_eq_of_lt (by omega)
  have hlen : data.length = if row.rtr then 0 else c2l code := by
    rcases hp with ⟨hz, rfl⟩ | ⟨hr, hle, hb⟩
    · rcases hz with hz | hz <;> simp [hz]
    · have := hexBytes_length hb
      simp only [List.length_take, List.length_drop] at this
      simp only [hr]
      simp
      omega
  have hz : 0 ∈ boundaryLengths := by decide
  simp only [producedFrame, FrameRow.frame, Frame.len, hlen, BitVec.toNat_ofNat, hdlc, Bool.and_eq_true]
  refine ⟨⟨⟨⟨?_, by simpa using hc⟩, ?_⟩, ?_⟩, ?_⟩
  · cases hr : row.rtr <;> simp [hc, hz]
  · cases hr : row.rtr <;> simp
    exact hrows.1 hr
  · cases hb : row.brs <;> simp
    exact hrows.2 hb
  · cases he : row.ext
    · have : ((s.drop 1).take row.idWidth).length ≤ 3 := by
        simp [FrameRow.idWidth, he]
      have hpow : 16 ^ ((s.drop 1).take row.idWidth).length ≤ 16 ^ 3 := Nat.pow_le_pow_right (by omega) this
      simp only [Bool.false_or, decide_eq_true_eq, BitVec.le_def, BitVec.toNat_ofNat]
      omega
    · simp

/-- The upper-case form of a digit character is the digit Encode writes for its value. -/
theorem hc_eq_upperHex {lower : Bool} {c : Byte} {v : Nibble} (h : hv lower c = some v) : hc v = upperHex c := by
  rw [hc_of_hv h]
  simp [upperHex, isLowerHex]

theorem map_hc_eq_upperHex {lower : Bool} : ∀ {cs : Line} {vs : List Nibble}, cs.map (hv lower) = vs.map some →
    vs.map hc = cs.map upperHex
  | [], [], _ => rfl
  | c :: cs, v :: vs, h => by
    simp only [List.map_cons, List.cons.injEq] at h ⊢
    exact ⟨hc_eq_upperHex h.1, map_hc_eq_upperHex h.2⟩
  | [], _ :: _, h => by simp at h
  | _ :: _, [], h => by simp at h

/-- Encoding the bytes of a payload field gives its characters back, in upper case. -/
theorem payloadChars_of_hexBytes {lower : Bool} : ∀ {cs : Line} {data : List Byte}, hexBytes? lower cs = some data →
    payloadChars data = cs.map upperHex
  | [], data, h => by cases h; rfl
  | [_], data, h => by cases h
  | x :: y :: rest, data, h => by
    simp only [hexBytes?] at h
    split at h
    · rename_i a b bs h1 h2 h3
      cases h
      have := payloadChars_of_hexBytes h3
      simp only [payloadChars] at this
      simp only [payloadChars, List.flatMap_cons, byteChars_of_nibbles, this, List.map_cons, List.cons_append,
        List.nil_append, hc_eq_upperHex h1, hc_eq_upperHex h2]
    · cases h

/-- A row of the letter map is determined by its flags. -/
theorem rows_unique : ∀ row ∈ frameRows.map Prod.snd, ∀ row' ∈ frameRows.map Prod.snd, row.ext = row'.ext →
    row.fd = row'.fd → row.brs = row'.brs → row.rtr = row'.rtr → row = row' := by decide

/-- Cutting a line behind what is read changes nothing that is read. -/
theorem memRead_take {s : Line} {k a n : Nat} (h : a + n ≤ k) : memRead (s.take k) a n = memRead s a n := by
  unfold memRead
  simp only [List.length_take, le_min_iff, h, true_and]
  split
  · rw [List.drop_take, List.take_take, Nat.min_eq_left (by omega)]
  · rfl

/-- An identifier field all of whose indices hold digits is complete and has a value. -/
theorem identifier_read {lower : Bool} {s : Line} {w : Nat} (hw : 1 ≤ w)
    (h : ∀ q, 1 ≤ q → q ≤ w → hexAt lower s q ≠ none) :
    1 + w ≤ s.length ∧ ∃ id, hexNum? lower 0 ((s.drop 1).take w) = some id := by
  have hl : 1 + w ≤ s.length := by
    obtain ⟨c, v, hc, -⟩ := hexAt_ne_none.1 (h w hw (Nat.le_refl w))
    by_contra hge
    rw [List.getElem?_eq_none (by omega)] at hc
    cases hc
  refine ⟨hl, ?_⟩
  cases hn : hexNum? lower 0 ((s.drop 1).take w) with
  | some id => exact ⟨id, rfl⟩
  | none =>
    obtain ⟨q, h1, h2, h3⟩ := (slice_invalid_iff hl).1 ((hexNum_eq_none_iff _ _ _).1 hn)
    exact absurd h3 (h q h1 (by omega))

/-- A remainder that decodes to a frame decodes to the same frame with more characters behind it. -/
theorem decodeAs_append {row : FrameRow} {lower : Bool} {s t : Line} {f : Frame}
    (h : decodeAs row lower s = .frame f) : decodeAs row lower (s ++ t) = .frame f := by
  obtain ⟨id, c, code, data, hlt, hid, hc, hcode, rfl, hp⟩ := decodeAs_eq_frame h
  refine decodeAs_frame_of (c := c) ?_ ?_ hcode ?_
  · rw [slice_append (by omega)]; exact hid
  · rw [List.getElem?_append_left hlt]; exact hc
  · rcases hp with hz | ⟨hr, hle, hb⟩
    · exact .inl hz
    · exact .inr ⟨hr, by simp; omega, by rw [slice_append hle]; exact hb⟩

/-! ### ENC -/

/-- An encode that is not refused: the line. -/
theorem encodeAs_eq_line {row : FrameRow} {ch : ChanReq} {f : Frame} {l : Line} (h : encodeAs row ch f = .line l) :
    ch ≤ 3#4 ∧ ∃ code, l2c? f.len = some code
      ∧ l = [0x30#8 + ch.setWidth 8, row.letter] ++ hexMin f.id row.idWidth ++ [hc code]
        ++ (if f.rtr then [] else payloadChars f.data) := by
  unfold encodeAs at h
  split at h
  · cases h
  · rename_i hch
    split at h
    · cases h
    · rename_i code hcode
      cases h
      exact ⟨BitVec.not_lt.1 hch, code, hcode, rfl⟩

/-- An encode of an accepted request. -/
theorem encodeAs_of {row : FrameRow} {ch : ChanReq} {f : Frame} (hch : ch ≤ 3#4) {code : Nibble}
    (hcode : l2c? f.len = some code) :
    encodeAs row ch f = .line ([0x30#8 + ch.setWidth 8, row.letter] ++ hexMin f.id row.idWidth ++ [hc code]
      ++ (if f.rtr then [] else payloadChars f.data)) := by
  simp [encodeAs, BitVec.not_lt.2 hch, hcode]

theorem idWidth_le (row : FrameRow) : 3 ≤ row.idWidth ∧ row.idWidth ≤ 8 := by
  cases h : row.ext <;> simp [FrameRow.idWidth, h, Config.idwStd, Config.idwExt]

theorem isUpperHex_hc (v : Nibble) : isUpperHex (hc v) = true := by simp [isUpperHex]

theorem rows_letter : ∀ row ∈ frameRows.map Prod.snd, row.letter ∈ frameLetters := by decide

theorem channel_digit : ∀ ch : ChanReq, ch ≤ 3#4 → 0x30#8 + ch.setWidth 8 ∈ channelDigits := by decide

/-- The characters after the letter are upper-case digits, and there are 4 to 137 of them. -/
theorem emittedLine_of_encodeAs {row : FrameRow} (hrow : row ∈ frameRows.map Prod.snd) {ch : ChanReq} {f : Frame} {l : Line}
    (h : encodeAs row ch f = .line l) : emittedLine l = true := by
  obtain ⟨hch, code, hcode, rfl⟩ := encodeAs_eq_line h
  have hl := rows_letter row hrow
  have hd := channel_digit ch hch
  have hn : f.len ≤ 64 := (l2c_isSome_iff _).1 (by simp [hcode])
  have hw := idWidth_le row
  have hm := hexMin_length_le f.id hw.2
  have hp : (if f.rtr then [] else payloadChars f.data).length ≤ 128 := by
    split
    · simp
    · rw [payloadChars_length]; simp only [Frame.len] at hn; omega
  simp only [emittedLine, List.cons_append, List.nil_append, Bool.and_eq_true, decide_eq_true_eq, List.all_eq_true,
    List.length_append, List.length_singleton]
  refine ⟨⟨⟨⟨hd, hl⟩, ?_⟩, by omega⟩, by omega⟩
  intro x hx
  simp only [List.append_assoc, List.mem_append, List.mem_singleton] at hx
  rcases hx with hx | hx | hx
  · obtain ⟨v, rfl⟩ := hexMin_upper hx; exact isUpperHex_hc v
  · rw [hx]; exact isUpperHex_hc code
  · split at hx
    · cases hx
    · obtain ⟨v, rfl⟩ := payloadChars_upper hx; exact isUpperHex_hc v

/-! ### Decoding of what was encoded -/

/-- The header of an encoded remainder reads back, when the identifier fits its field. -/
theorem decodeAs_encoded_header {row row' : FrameRow} {lower : Bool} {f : Frame} {code : Nibble} {p : Line}
    (hw : row'.idWidth = row.idWidth) (hid : f.id.toNat < 16 ^ row.idWidth) :
    decodeAs row lower (row'.letter :: (hexMin f.id row'.idWidth ++ [hc code] ++ p))
      = decodePayload row lower (row'.letter :: (hexMin f.id row.idWidth ++ [hc code] ++ p)) f.id.toNat (c2l code) := by
  have hlen := hexMin_length_eq f.id hid
  rw [hw]
  apply decodeAs_of_header (c := hc code)
  · simp only [List.drop_succ_cons, List.drop_zero, List.append_assoc]
    rw [List.take_append_of_le_length (by omega), List.take_of_length_le (by omega), hexNum_hexMin]
  · rw [Nat.add_comm 1, List.getElem?_cons_succ, List.append_assoc, List.getElem?_append_right (by omega), hlen,
      Nat.sub_self]
    rfl
  · simp

end Sys2Proof.Machine
end

