-- ==== Sys2Proof/Laws/Decode.lean ====
section
/-! SUPPORT. The dispatcher, the table of first letters and the letter selection: what each gives, once. -/

namespace Sys2Proof

@[simp] theorem splitDigit_nil : splitDigit [] = (none, []) := rfl

/-- A channel digit is recognised and removed. -/
@[simp] theorem splitDigit_digitChar (ch : Chan) (l : Line) : splitDigit (digitChar ch :: l) = (some ch, l) := by
  have h : ∀ ch : Chan, 0x30#8 ≤ digitChar ch ∧ digitChar ch ≤ 0x33#8 ∧ (digitChar ch - 0x30#8).setWidth 2 = ch := by
    decide
  obtain ⟨h1, h2, h3⟩ := h ch
  simp [splitDigit, h1, h2, h3]

/-- Any other first character stays. -/
theorem splitDigit_other {c : Byte} (h : ¬(0x30#8 ≤ c ∧ c ≤ 0x33#8)) (l : Line) : splitDigit (c :: l) = (none, c :: l) := by
  simp [splitDigit, h]

/-- The two cases of a first character. -/
theorem splitDigit_cases (l : Line) :
    (splitDigit l = (none, l) ∧ ∀ c, l.head? = some c → ¬(0x30#8 ≤ c ∧ c ≤ 0x33#8))
      ∨ ∃ ch rest, l = digitChar ch :: rest ∧ splitDigit l = (some ch, rest) := by
  cases l with
  | nil => exact .inl ⟨rfl, by simp⟩
  | cons c cs =>
    by_cases h : 0x30#8 ≤ c ∧ c ≤ 0x33#8
    · refine .inr ⟨(c - 0x30#8).setWidth 2, cs, ?_, ?_⟩
      · have : ∀ c : Byte, 0x30#8 ≤ c ∧ c ≤ 0x33#8 → c = digitChar ((c - 0x30#8).setWidth 2) := by decide
        rw [← this c h]
      · simp [splitDigit, h]
    · exact .inl ⟨splitDigit_other h cs, by simpa using h⟩

/-- A row of the table is found by its own pattern only. -/
theorem lookup_eq_some {c : Byte} {row : OpRow} (h : lookup c = some row) : row ∈ opTable ∧ c = row.pattern := by
  refine ⟨List.mem_of_find?_eq_some h, ?_⟩
  have hm := List.find?_some h
  have hall : ∀ r ∈ opTable, r.mask = 0xFF#8 := by
    simp [opTable, frameOpRows, configOpRows]
  have hr := hall row (List.mem_of_find?_eq_some h)
  have : ∀ c : Byte, c &&& 0xFF#8 = c := by decide
  simpa [hr, this] using hm

/-- The instruction of a line whose remainder begins with `c`. -/
theorem decodeLine_cons {l : Line} {c : Byte} {body : Line} (h : (splitDigit l).2 = c :: body) :
    decodeLine l = match lookup c with
      | some row => .ok (row.build ⟨(splitDigit l).1, body⟩)
      | none => .error (.noRow c) := by
  cases hl : lookup c <;> simp [decodeLine, h, hl]

/-- A line is accepted exactly when its remainder begins with a letter of the table, and then it is the instruction of
that letter's row. -/
theorem decodeLine_ok {l : Line} {i : Instr} (h : decodeLine l = .ok i) :
    ∃ c body row, (splitDigit l).2 = c :: body ∧ lookup c = some row ∧ i = row.build ⟨(splitDigit l).1, body⟩ := by
  cases hs : (splitDigit l).2 with
  | nil => simp [decodeLine, hs] at h
  | cons c body =>
    rw [decodeLine_cons hs] at h
    cases hr : lookup c with
    | none => simp [hr] at h
    | some row => exact ⟨c, body, row, rfl, hr, by simpa [hr] using h.symm⟩

theorem decodeLine_error {l : Line} {e : Reject} (h : decodeLine l = .error e) :
    (splitDigit l).2 = [] ∨ ∃ c body, (splitDigit l).2 = c :: body ∧ lookup c = none := by
  cases hs : (splitDigit l).2 with
  | nil => exact .inl rfl
  | cons c body =>
    rw [decodeLine_cons hs] at h
    cases hr : lookup c with
    | none => exact .inr ⟨c, body, rfl, hr⟩
    | some row => simp [hr] at h

/-- Each row of the table is found by its pattern. -/
theorem lookup_pattern {row : OpRow} (h : row ∈ opTable) : lookup row.pattern = some row := by
  simp only [opTable, frameOpRows, configOpRows, List.cons_append, List.nil_append, List.mem_cons, List.not_mem_nil,
    or_false] at h
  rcases h with rfl | rfl | rfl | rfl | rfl | rfl | rfl | rfl | rfl | rfl | rfl | rfl | rfl | rfl | rfl <;> rfl

/-- The characters of a line, split and put together again. -/
theorem lineChars_splitDigit {l : Line} {c : Byte} {body : Line} (h : (splitDigit l).2 = c :: body) :
    lineChars c ⟨(splitDigit l).1, body⟩ = l := by
  rcases splitDigit_cases l with ⟨h1, -⟩ | ⟨ch, rest, rfl, h1⟩
  · rw [h1] at h ⊢; exact h.symm
  · rw [h1] at h ⊢; simp at h; simp [lineChars, h]

/-- A line built with a letter that is no channel digit splits into its own parts. -/
theorem splitDigit_lineChars {c : Byte} (hc : ¬(0x30#8 ≤ c ∧ c ≤ 0x33#8)) (l : RxLine) :
    splitDigit (lineChars c l) = (l.digit, c :: l.body) := by
  cases hd : l.digit with
  | none => simp [lineChars, hd, splitDigit_other hc]
  | some ch => simp [lineChars, hd]

/-- The digit of an accepted request's channel is recognised and removed. -/
theorem splitDigit_request {ch : ChanReq} (h : ch ≤ 3#4) (l : Line) :
    splitDigit ((0x30#8 + ch.setWidth 8) :: l) = (some (ch.setWidth 2), l) := by
  have hd : ∀ ch : ChanReq, ch ≤ 3#4 → 0x30#8 + ch.setWidth 8 = digitChar (ch.setWidth 2) := by decide
  rw [hd ch h, splitDigit_digitChar]

namespace Machine

/-- A request selects one of the eight frame rows, the one of its flags, and keeps its operands. -/
theorem selectInstr_row (q : Request) : ∃ p ∈ frameRows, selectInstr q = p.1 (.encode q.ch q.frame)
    ∧ p.2.ext = q.frame.ext ∧ p.2.fd = q.frame.fd
    ∧ p.2.brs = (q.frame.fd && q.frame.brs) ∧ p.2.rtr = (!q.frame.fd && q.frame.rtr) := by
  cases hf : q.frame.fd <;> cases hb : q.frame.brs <;> cases hr : q.frame.rtr <;> cases he : q.frame.ext <;>
    simp [selectInstr, frameRows, hf, hb, hr, he, rowClassicStd, rowClassicExt, rowRemoteStd, rowRemoteExt, rowFdStd,
      rowFdExt, rowFdBrsStd, rowFdBrsExt]

end Machine

end Sys2Proof
end

