-- ==== Sys2Proof/Laws/PerInstr.lean ====
section
/-! SUPPORT. Family LetterRow: the letter of every instruction is found in the table, and the row found builds instructions
of that letter only. -/

namespace Sys2Proof.Laws.LetterRow

/-- The table finds the instruction's letter, in a row that builds instructions of that letter (R97). -/
def Statement (i : Instr) : Prop :=
  ∀ l : RxLine, (lookup i.letter).map (fun row => (row.build l).letter) = some i.letter

theorem classicStd (op : FrameOp) : Statement (.classicStd op) := by
  intro l; simp only [Instr.letter]; rfl
theorem classicExt (op : FrameOp) : Statement (.classicExt op) := by
  intro l; simp only [Instr.letter]; rfl
theorem remoteStd (op : FrameOp) : Statement (.remoteStd op) := by
  intro l; simp only [Instr.letter]; rfl
theorem remoteExt (op : FrameOp) : Statement (.remoteExt op) := by
  intro l; simp only [Instr.letter]; rfl
theorem fdStd (op : FrameOp) : Statement (.fdStd op) := by
  intro l; simp only [Instr.letter]; rfl
theorem fdExt (op : FrameOp) : Statement (.fdExt op) := by
  intro l; simp only [Instr.letter]; rfl
theorem fdBrsStd (op : FrameOp) : Statement (.fdBrsStd op) := by
  intro l; simp only [Instr.letter]; rfl
theorem fdBrsExt (op : FrameOp) : Statement (.fdBrsExt op) := by
  intro l; simp only [Instr.letter]; rfl
theorem openChannel (l : RxLine) : Statement (.openChannel l) := by
  intro l; simp only [Instr.letter]; rfl
theorem closeChannel (l : RxLine) : Statement (.closeChannel l) := by
  intro l; simp only [Instr.letter]; rfl
theorem setRate (l : RxLine) : Statement (.setRate l) := by
  intro l; simp only [Instr.letter]; rfl
theorem setBitrate (l : RxLine) : Statement (.setBitrate l) := by
  intro l; simp only [Instr.letter]; rfl
theorem setFdRate (l : RxLine) : Statement (.setFdRate l) := by
  intro l; simp only [Instr.letter]; rfl
theorem nominalTiming (l : RxLine) : Statement (.nominalTiming l) := by
  intro l; simp only [Instr.letter]; rfl
theorem dataTiming (l : RxLine) : Statement (.dataTiming l) := by
  intro l; simp only [Instr.letter]; rfl

end Sys2Proof.Laws.LetterRow
end

