-- ==== Sys2Proof/Laws/Step.lean ====
section
/-! SUPPORT. What executing an instruction and making a move can do, said once: later proofs cite these and unfold neither
exec nor step. -/

namespace Sys2Proof.Machine

/-! ### exec on the rows -/

/-- Each of the eight frame constructors executes its own row. -/
theorem exec_frameRow {p : (FrameOp → Instr) × FrameRow} (h : p ∈ frameRows) (op : FrameOp) (s : State) :
    exec (p.1 op) s = execFrame p.2 op s := by
  simp only [frameRows, List.mem_cons, List.not_mem_nil, or_false] at h
  rcases h with rfl | rfl | rfl | rfl | rfl | rfl | rfl | rfl <;> rfl

/-- Each of the seven configuration constructors drops its line as "not a frame". -/
theorem exec_configRow {p : (RxLine → Instr) × Byte} (h : p ∈ configRows) (l : RxLine) (s : State) :
    exec (p.1 l) s = .next (recordDrop .notFrame s) := by
  simp only [configRows, List.mem_cons, List.not_mem_nil, or_false] at h
  rcases h with rfl | rfl | rfl | rfl | rfl | rfl | rfl <;> rfl

theorem execFrame_encode (row : FrameRow) (ch : ChanReq) (f : Frame) (s : State) :
    execFrame row (.encode ch f) s = finishEncode (encodeAs row ch f) s := rfl

theorem execFrame_decode (row : FrameRow) (l : RxLine) (s : State) :
    execFrame row (.decode l) s
      = finishDecode l.chan (decodeAs row Config.acceptLowerHex (row.letter :: l.body)) s := rfl

/-- Every instruction is a frame row with an operand or a configuration row with a line. -/
theorem instr_rows (i : Instr) : (∃ p ∈ frameRows, ∃ op, i = p.1 op) ∨ ∃ p ∈ configRows, ∃ l, i = p.1 l := by
  cases i <;> simp [frameRows, configRows]

/-- The outcomes of an encode form. -/
theorem execEncode_cases {p : (FrameOp → Instr) × FrameRow} (hp : p ∈ frameRows) (ch : ChanReq) (f : Frame) (s : State) :
    (∃ l, encodeAs p.2 ch f = .line l ∧ emittedLine l = true ∧ exec (p.1 (.encode ch f)) s = .next (emitLine l s))
      ∨ ∃ e, encodeAs p.2 ch f = .error e ∧ exec (p.1 (.encode ch f)) s = .next (recordError e s) := by
  rw [exec_frameRow hp, execFrame_encode]
  cases h : encodeAs p.2 ch f with
  | line l => exact .inl ⟨l, rfl, emittedLine_of_encodeAs (List.mem_map_of_mem hp) h, rfl⟩
  | error e => exact .inr ⟨e, rfl, rfl⟩

/-- The outcomes of a decode form. -/
theorem execDecode_cases {p : (FrameOp → Instr) × FrameRow} (hp : p ∈ frameRows) (l : RxLine) (s : State) :
    (∃ f, decodeAs p.2 Config.acceptLowerHex (p.2.letter :: l.body) = .frame f ∧ producedFrame f = true
        ∧ exec (p.1 (.decode l)) s = .next (deliver l.chan f s))
      ∨ ∃ c, c ≠ .notFrame ∧ decodeAs p.2 Config.acceptLowerHex (p.2.letter :: l.body) = .noFrame c
        ∧ exec (p.1 (.decode l)) s = .next (recordDrop c s) := by
  rw [exec_frameRow hp, execFrame_decode]
  cases h : decodeAs p.2 Config.acceptLowerHex (p.2.letter :: l.body) with
  | frame f => exact .inl ⟨f, rfl, decodeAs_produced (List.mem_map_of_mem hp) h, rfl⟩
  | noFrame c =>
    refine .inr ⟨c, ?_, rfl, rfl⟩
    rintro rfl
    exact decodeAs_ne_notFrame _ _ _ h

/-- An encode form on an accepted request emits its line. -/
theorem execEncode_accepted {p : (FrameOp → Instr) × FrameRow} (hp : p ∈ frameRows) {ch : ChanReq} {f : Frame} (s : State)
    (hch : ch ≤ 3#4) (hlen : f.len ≤ 64) :
    ∃ code, l2c? f.len = some code
      ∧ exec (p.1 (.encode ch f)) s = .next (emitLine ([0x30#8 + ch.setWidth 8, p.2.letter] ++ hexMin f.id p.2.idWidth
          ++ [hc code] ++ (if f.rtr then [] else payloadChars f.data)) s) := by
  obtain ⟨code, hcode⟩ := Option.isSome_iff_exists.1 ((l2c_isSome_iff f.len).2 hlen)
  refine ⟨code, hcode, ?_⟩
  rw [exec_frameRow hp, execFrame_encode, encodeAs_of hch hcode]
  rfl

/-! ### The receive pipeline -/

/-- The instruction of a complete line is a decode form or a configuration line, on the line's own channel. -/
theorem decodeLine_rows {l : Line} {i : Instr} (h : decodeLine l = .ok i) :
    ∃ c body, (splitDigit l).2 = c :: body ∧
      ((∃ p ∈ frameRows, p.2.letter = c ∧ i = p.1 (.decode ⟨(splitDigit l).1, body⟩))
        ∨ ∃ p ∈ configRows, p.2 = c ∧ i = p.1 ⟨(splitDigit l).1, body⟩) := by
  obtain ⟨c, body, row, hs, hl, rfl⟩ := decodeLine_ok h
  obtain ⟨hmem, rfl⟩ := lookup_eq_some hl
  refine ⟨_, body, hs, ?_⟩
  simp only [opTable, frameOpRows, configOpRows, List.mem_append, List.mem_cons, List.not_mem_nil, or_false] at hmem
  rcases hmem with (rfl | rfl | rfl | rfl | rfl | rfl | rfl | rfl) | (rfl | rfl | rfl | rfl | rfl | rfl | rfl)
  · exact .inl ⟨_, .head _, rfl, rfl⟩
  · exact .inl ⟨_, .tail _ (.head _), rfl, rfl⟩
  · exact .inl ⟨_, .tail _ (.tail _ (.head _)), rfl, rfl⟩
  · exact .inl ⟨_, .tail _ (.tail _ (.tail _ (.head _))), rfl, rfl⟩
  · exact .inl ⟨_, .tail _ (.tail _ (.tail _ (.tail _ (.head _)))), rfl, rfl⟩
  · exact .inl ⟨_, .tail _ (.tail _ (.tail _ (.tail _ (.tail _ (.head _))))), rfl, rfl⟩
  · exact .inl ⟨_, .tail _ (.tail _ (.tail _ (.tail _ (.tail _ (.tail _ (.head _)))))), rfl, rfl⟩
  · exact .inl ⟨_, .tail _ (.tail _ (.tail _ (.tail _ (.tail _ (.tail _ (.tail _ (.head _))))))), rfl, rfl⟩
  · exact .inr ⟨_, .head _, rfl, rfl⟩
  · exact .inr ⟨_, .tail _ (.head _), rfl, rfl⟩
  · exact .inr ⟨_, .tail _ (.tail _ (.head _)), rfl, rfl⟩
  · exact .inr ⟨_, .tail _ (.tail _ (.tail _ (.head _))), rfl, rfl⟩
  · exact .inr ⟨_, .tail _ (.tail _ (.tail _ (.tail _ (.head _)))), rfl, rfl⟩
  · exact .inr ⟨_, .tail _ (.tail _ (.tail _ (.tail _ (.tail _ (.head _))))), rfl, rfl⟩
  · exact .inr ⟨_, .tail _ (.tail _ (.tail _ (.tail _ (.tail _ (.tail _ (.head _)))))), rfl, rfl⟩

/-- The frame row found for a frame letter, and none for any other character. -/
theorem frameRowOf_letter {p : (FrameOp → Instr) × FrameRow} (hp : p ∈ frameRows) : frameRowOf p.2.letter = some p.2 := by
  simp only [frameRows, List.mem_cons, List.not_mem_nil, or_false] at hp
  rcases hp with rfl | rfl | rfl | rfl | rfl | rfl | rfl | rfl <;> rfl

theorem frameRowOf_config : ∀ p ∈ configRows, frameRowOf p.2 = none := by
  intro p hp
  simp only [configRows, List.mem_cons, List.not_mem_nil, or_false] at hp
  rcases hp with rfl | rfl | rfl | rfl | rfl | rfl | rfl <;> rfl

theorem frameRowOf_eq_none_iff (c : Byte) : frameRowOf c = none ↔ c ∉ frameLetters := by
  revert c; decide

theorem frameRowOf_unknown {c : Byte} (h : lookup c = none) : frameRowOf c = none := by
  have : ∀ c : Byte, (lookup c).isNone = true → frameRowOf c = none := by decide
  exact this c (by simp [h])

/-- `RXLINE`: Dispatch, Decode, then the notification or the drop. -/
theorem rxLine_eq (l : Line) (s : State) :
    rxLine l s = finishDecode (dispatch l).1 (decodeRemainder Config.acceptLowerHex (dispatch l).2) s := by
  simp only [rxLine, decode, dispatch]
  cases h : decodeLine l with
  | ok i =>
    obtain ⟨c, body, hs, ⟨p, hp, rfl, rfl⟩ | ⟨p, hp, rfl, rfl⟩⟩ := decodeLine_rows h
    · simp only [hs, decodeRemainder, frameRowOf_letter hp, exec_frameRow hp, execFrame_decode, RxLine.chan]
    · simp only [hs, decodeRemainder, frameRowOf_config p hp, exec_configRow hp, finishDecode]
  | error e =>
    rcases decodeLine_error h with hs | ⟨c, body, hs, hl⟩
    · simp only [hs, decodeRemainder, finishDecode]
    · simp only [hs, decodeRemainder, frameRowOf_unknown hl, finishDecode]

theorem decodeRemainder_produced {lower : Bool} {r : Line} {f : Frame} (h : decodeRemainder lower r = .frame f) :
    producedFrame f = true := by
  cases r with
  | nil => cases h
  | cons c body =>
    simp only [decodeRemainder] at h
    cases hr : frameRowOf c with
    | none => simp [hr] at h
    | some row =>
      simp only [hr] at h
      exact decodeAs_produced (List.mem_of_find?_eq_some hr) h

/-- What a complete line can do: deliver one frame Decode can produce, or be dropped. -/
theorem rxLine_cases (l : Line) (s : State) :
    (∃ ch f, producedFrame f = true ∧ rxLine l s = .next (deliver ch f s))
      ∨ ∃ c, rxLine l s = .next (recordDrop c s) := by
  rw [rxLine_eq]
  cases h : decodeRemainder Config.acceptLowerHex (dispatch l).2 with
  | frame f => exact .inl ⟨_, f, decodeRemainder_produced h, rfl⟩
  | noFrame c => exact .inr ⟨c, rfl⟩

/-- What a complete line does never depends on the cause reported before. -/
theorem rxLine_noCause (l : Line) (s : State) : rxLine l (noCause s) = rxLine l s := by
  rw [rxLine_eq, rxLine_eq]
  cases decodeRemainder Config.acceptLowerHex (dispatch l).2 <;> rfl

/-- What a complete line does neither reads nor writes anything of the encoder's or of the schedule. -/
theorem rxLine_other_fields {s t : State} {l : Line} (h : rxLine l s = .next t) (ei : List Request) (el : List Line)
    (ee : Option (BitVec 2)) (sc : List Move) :
    rxLine l { s with encIn := ei, encLine := el, encErr := ee, sched := sc }
      = .next { t with encIn := ei, encLine := el, encErr := ee, sched := sc } := by
  rw [rxLine_eq] at h ⊢
  cases hd : decodeRemainder Config.acceptLowerHex (dispatch l).2 <;> rw [hd] at h <;> cases h <;> rfl

/-- A receive move: nothing, a stored or discarded character, or a completed line. -/
theorem receiveMove_cases (s : State) :
    ((s.frameReceived ≠ [] ∨ s.rxIn = []) ∧ receiveMove s = .next (noCause s))
      ∨ (∃ c cs, s.frameReceived = [] ∧ s.rxIn = c :: cs ∧ c ≠ Config.lineTerm
          ∧ receiveMove s = .next (noCause (storeChar c (setRxIn cs s))))
      ∨ ∃ cs, s.frameReceived = [] ∧ s.rxIn = Config.lineTerm :: cs
          ∧ receiveMove s = rxLine s.rxbuf (clearLine (setRxIn cs s)) := by
  unfold receiveMove
  split
  · rename_i c cs hf hr
    by_cases h : c = Config.lineTerm
    · subst h
      exact .inr (.inr ⟨cs, hf, hr, by simp [rxChar]⟩)
    · exact .inr (.inl ⟨c, cs, hf, hr, h, by simp [rxChar, h]⟩)
  · rename_i h
    refine .inl ⟨?_, rfl⟩
    cases hf : s.frameReceived with
    | cons e es => exact .inl (by simp)
    | nil =>
      cases hr : s.rxIn with
      | nil => exact .inr rfl
      | cons c cs => exact absurd hr (h c cs hf)

/-- What a receive move reports and counts: no drop and the counter as it was, or a drop that counts by its cause. -/
theorem receiveMove_counts {s t : State} (h : receiveMove s = .next t) :
    ((t.decCause = none ∨ t.decCause = some 0#3) ∧ t.dropcnt = s.dropcnt)
      ∨ ∃ c : DropCause, t.decCause = some c.code ∧ t.dropcnt = countDrop c s.dropcnt := by
  rcases receiveMove_cases s with ⟨-, hx⟩ | ⟨c, cs, -, -, -, hx⟩ | ⟨cs, -, -, hx⟩
  · rw [hx] at h; cases h; simp
  · rw [hx] at h; cases h; simp
  · rw [hx] at h
    rcases rxLine_cases s.rxbuf (clearLine (setRxIn cs s)) with ⟨ch, f, -, hy⟩ | ⟨c, hy⟩
    · rw [hy] at h; cases h; simp
    · rw [hy] at h; cases h; exact .inr ⟨c, by simp⟩

/-! ### The encoder -/

/-- A request runs the encode form of the row its flags select. -/
theorem encodeRequest_row (q : Request) (s : State) : ∃ p ∈ frameRows, selectInstr q = p.1 (.encode q.ch q.frame)
    ∧ encodeRequest q s = exec (p.1 (.encode q.ch q.frame)) s
    ∧ p.2.ext = q.frame.ext ∧ p.2.fd = q.frame.fd
    ∧ p.2.brs = (q.frame.fd && q.frame.brs) ∧ p.2.rtr = (!q.frame.fd && q.frame.rtr) := by
  obtain ⟨p, hp, hi, hext, hfd, hbrs, hrtr⟩ := selectInstr_row q
  exact ⟨p, hp, hi, by simp only [encodeRequest, decode, hi], hext, hfd, hbrs, hrtr⟩

/-- What a request can do: emit one line Encode can emit, or report an error. -/
theorem encodeRequest_cases (q : Request) (s : State) :
    (∃ l, emittedLine l = true ∧ encodeRequest q s = .next (emitLine l s))
      ∨ ∃ e, encodeRequest q s = .next (recordError e s) := by
  obtain ⟨p, hp, -, he, -⟩ := encodeRequest_row q s
  rw [he]
  rcases execEncode_cases hp q.ch q.frame s with ⟨l, -, hl, h⟩ | ⟨e, -, h⟩
  · exact .inl ⟨l, hl, h⟩
  · exact .inr ⟨e, h⟩

/-- An encode move: nothing, or the first waiting request. -/
theorem encodeMove_cases (s : State) :
    (s.encIn = [] ∧ encodeMove s = .next (noError s))
      ∨ ∃ q qs, s.encIn = q :: qs ∧ encodeMove s = encodeRequest q (setEncIn qs s) := by
  unfold encodeMove
  cases h : s.encIn with
  | nil => exact .inl ⟨rfl, rfl⟩
  | cons q qs => exact .inr ⟨q, qs, rfl, rfl⟩

/-- An accepted request emits the line of the row its flags select. -/
theorem encodeRequest_accepted (q : Request) (s : State) (hch : q.ch ≤ 3#4) (hlen : q.frame.len ≤ 64) :
    ∃ row ∈ frameRows.map Prod.snd, ∃ code, l2c? q.frame.len = some code
      ∧ row.ext = q.frame.ext ∧ row.fd = q.frame.fd
      ∧ row.brs = (q.frame.fd && q.frame.brs) ∧ row.rtr = (!q.frame.fd && q.frame.rtr)
      ∧ encodeRequest q s = .next (emitLine ([0x30#8 + q.ch.setWidth 8, row.letter] ++ hexMin q.frame.id row.idWidth
          ++ [hc code] ++ (if q.frame.rtr then [] else payloadChars q.frame.data)) s) := by
  obtain ⟨p, hp, -, he, hext, hfd, hbrs, hrtr⟩ := encodeRequest_row q s
  obtain ⟨code, hcode, hx⟩ := execEncode_accepted hp s hch hlen
  exact ⟨p.2, List.mem_map_of_mem hp, code, hcode, hext, hfd, hbrs, hrtr, he.trans hx⟩

/-- A line of an accepted request, received again: what DEC makes of it. -/
theorem rxLine_encoded {row : FrameRow} (hrow : row ∈ frameRows.map Prod.snd) {ch : ChanReq} (hch : ch ≤ 3#4) (r : Line)
    (s : State) :
    rxLine ([0x30#8 + ch.setWidth 8, row.letter] ++ r) s
      = finishDecode (ch.setWidth 2) (decodeAs row Config.acceptLowerHex (row.letter :: r)) s := by
  obtain ⟨p, hp, rfl⟩ := List.mem_map.1 hrow
  simp only [rxLine_eq, dispatch, List.cons_append, List.nil_append, splitDigit_request hch, decodeRemainder,
    frameRowOf_letter hp, Option.getD_some]

/-- An encode move leaves the counter as it was. -/
theorem encodeMove_dropcnt {s t : State} (h : encodeMove s = .next t) : t.dropcnt = s.dropcnt := by
  rcases encodeMove_cases s with ⟨-, hx⟩ | ⟨q, qs, -, hx⟩
  · rw [hx] at h; cases h; simp
  · rw [hx] at h
    rcases encodeRequest_cases q (setEncIn qs s) with ⟨l, -, hy⟩ | ⟨e, hy⟩ <;> rw [hy] at h <;> cases h <;> simp

/-! ### Steps -/

theorem step_cons {s : State} {m : Move} {ms : List Move} (h : s.sched = m :: ms) : step s = act m (setSched ms s) := by
  simp [step, stepMove, h]

theorem step_nil {s : State} (h : s.sched = []) : step s = .next s := by
  simp [step, stepMove, h]

end Sys2Proof.Machine
end

