-- ==== Sys2Proof/Tests/Slice0.lean ====
section
/-! SUPPORT. Small tests. The expected results are the spec's own: the worked examples and vectors of
spec/95_test_vectors.md (E, D, X, P numbers below) and the formats of spec/30_encoding.md. The last part shows, for every
statement with hypotheses, that something meets them. -/

namespace Sys2Proof.Tests

open Sys2Proof.Machine

/-- The characters of a text. -/
def str (s : String) : Line := s.toList.map (fun c => BitVec.ofNat 8 c.toNat)

/-- `n` copies of a text. -/
def rep (n : Nat) (s : String) : Line := (List.replicate n (str s)).flatten

/-- The outcome is a next state that passes the check. -/
def goesTo (o : Host.Outcome State Fault Refusal) (p : State → Bool) : Bool :=
  match o with
  | .next s => p s
  | .fault _ => false
  | .refused _ => false

/-- A classic data frame with a standard identifier. -/
def std (id : BitVec 32) (data : List Byte) : Frame := ⟨id, data, 0#7, false, false, false, false⟩

/-- The encode of `f` on `ch` emits exactly the line `l`. -/
def emits (i : Instr) (l : Line) : Bool := goesTo (exec i .reset) (fun t => t.encLine == [l] && t.encErr == some 0#2)

/-- The line is delivered as the frame `f` on channel `ch`. -/
def delivers (o : Host.Outcome State Fault Refusal) (ch : Chan) (f : Frame) : Bool :=
  goesTo o (fun t => t.frameReceived == [⟨ch, f⟩] && t.decCause == some 0#3)

/-- The line is dropped with the cause. -/
def drops (o : Host.Outcome State Fault Refusal) (cause : BitVec 3) : Bool :=
  goesTo o (fun t => t.frameReceived == [] && t.decCause == some cause)

/-! ### WellFormed refuses ill-formed terms, one for each check -/

set_option maxRecDepth 10000 in
theorem test_wf_accepts_boundaries :
    (Instr.classicStd (.encode 15#4 (std 0xFFFFFFFF#32 (List.replicate 127 0#8)))).wellFormed = true
    ∧ (Instr.openChannel ⟨some 3#2, List.replicate 137 0#8⟩).wellFormed = true
    ∧ (Instr.openChannel ⟨none, List.replicate 138 0#8⟩).wellFormed = true := by decide

set_option maxRecDepth 10000 in
theorem test_wf_refuses_long_data :
    (Instr.classicStd (.encode 0#4 (std 0#32 (List.replicate 128 0#8)))).wellFormed = false := by decide

theorem test_wf_refuses_ext_flag :
    (Instr.classicExt (.encode 0#4 (std 0x123#32 []))).wellFormed = false := by decide

theorem test_wf_refuses_fd_flag :
    (Instr.fdStd (.encode 0#4 (std 0x123#32 []))).wellFormed = false := by decide

theorem test_wf_refuses_brs_flag :
    (Instr.fdStd (.encode 0#4 ⟨0x123#32, [], 0#7, false, false, true, true⟩)).wellFormed = false := by decide

theorem test_wf_refuses_rtr_flag :
    (Instr.remoteStd (.encode 0#4 (std 0x123#32 []))).wellFormed = false := by decide

set_option maxRecDepth 10000 in
theorem test_wf_refuses_long_line :
    (Instr.openChannel ⟨some 2#2, List.replicate 138 0#8⟩).wellFormed = false
    ∧ (Instr.remoteExt (.decode ⟨none, List.replicate 139 0#8⟩)).wellFormed = false := by decide

theorem test_wf_refuses_terminator :
    (Instr.setRate ⟨some 1#2, [0x36#8, 0x0D#8]⟩).wellFormed = false := by decide

/-! ### Decoding: a line written out for every constructor -/

/-- D1 with its channel digit, the twelve bytes the spec prints (95, 1.1). -/
theorem test_decode_t : decode (.line [0x30#8, 0x74#8, 0x31#8, 0x32#8, 0x33#8, 0x33#8, 0x31#8, 0x31#8, 0x32#8, 0x32#8,
    0x33#8, 0x33#8]) = .ok (.classicStd (.decode ⟨some 0#2,
      [0x31#8, 0x32#8, 0x33#8, 0x33#8, 0x31#8, 0x31#8, 0x32#8, 0x32#8, 0x33#8, 0x33#8]⟩)) := by decide

/-- `TFFFFFFFF0` (D6). -/
theorem test_decode_T : decode (.line [0x54#8, 0x46#8, 0x46#8, 0x46#8, 0x46#8, 0x46#8, 0x46#8, 0x46#8, 0x46#8, 0x30#8])
    = .ok (.classicExt (.decode ⟨none, [0x46#8, 0x46#8, 0x46#8, 0x46#8, 0x46#8, 0x46#8, 0x46#8, 0x46#8, 0x30#8]⟩)) := by
  decide

/-- `3r1234` (D8). -/
theorem test_decode_r : decode (.line [0x33#8, 0x72#8, 0x31#8, 0x32#8, 0x33#8, 0x34#8])
    = .ok (.remoteStd (.decode ⟨some 3#2, [0x31#8, 0x32#8, 0x33#8, 0x34#8]⟩)) := by decide

/-- `2R000002000` (D11), the bytes the spec prints in P2. -/
theorem test_decode_R : decode (.line [0x32#8, 0x52#8, 0x30#8, 0x30#8, 0x30#8, 0x30#8, 0x30#8, 0x32#8, 0x30#8, 0x30#8,
    0x30#8]) = .ok (.remoteExt (.decode ⟨some 2#2,
      [0x30#8, 0x30#8, 0x30#8, 0x30#8, 0x30#8, 0x32#8, 0x30#8, 0x30#8, 0x30#8]⟩)) := by decide

/-- `0d1230` (D13). -/
theorem test_decode_d : decode (.line [0x30#8, 0x64#8, 0x31#8, 0x32#8, 0x33#8, 0x30#8])
    = .ok (.fdStd (.decode ⟨some 0#2, [0x31#8, 0x32#8, 0x33#8, 0x30#8]⟩)) := by decide

/-- `D` alone (X11). -/
theorem test_decode_D : decode (.line [0x44#8]) = .ok (.fdExt (.decode ⟨none, []⟩)) := by decide

/-- `3b0010` (D15). -/
theorem test_decode_b : decode (.line [0x33#8, 0x62#8, 0x30#8, 0x30#8, 0x31#8, 0x30#8])
    = .ok (.fdBrsStd (.decode ⟨some 3#2, [0x30#8, 0x30#8, 0x31#8, 0x30#8]⟩)) := by decide

/-- The letter `B` with a channel digit (R81, R82). -/
theorem test_decode_B : decode (.line [0x31#8, 0x42#8, 0x31#8]) = .ok (.fdBrsExt (.decode ⟨some 1#2, [0x31#8]⟩)) := by
  decide

/-- `2O` (R212). -/
theorem test_decode_O : decode (.line [0x32#8, 0x4F#8]) = .ok (.openChannel ⟨some 2#2, []⟩) := by decide

/-- `0C` (R213). -/
theorem test_decode_C : decode (.line [0x30#8, 0x43#8]) = .ok (.closeChannel ⟨some 0#2, []⟩) := by decide

/-- `1S6` (R214). -/
theorem test_decode_S : decode (.line [0x31#8, 0x53#8, 0x36#8]) = .ok (.setRate ⟨some 1#2, [0x36#8]⟩) := by decide

/-- `0y500000` (R215). -/
theorem test_decode_y : decode (.line [0x30#8, 0x79#8, 0x35#8, 0x30#8, 0x30#8, 0x30#8, 0x30#8, 0x30#8])
    = .ok (.setBitrate ⟨some 0#2, [0x35#8, 0x30#8, 0x30#8, 0x30#8, 0x30#8, 0x30#8]⟩) := by decide

/-- `3Y2` (R216). -/
theorem test_decode_Y : decode (.line [0x33#8, 0x59#8, 0x32#8]) = .ok (.setFdRate ⟨some 3#2, [0x32#8]⟩) := by decide

/-- `0a1234` (R217). -/
theorem test_decode_a : decode (.line [0x30#8, 0x61#8, 0x31#8, 0x32#8, 0x33#8, 0x34#8])
    = .ok (.nominalTiming ⟨some 0#2, [0x31#8, 0x32#8, 0x33#8, 0x34#8]⟩) := by decide

/-- `0A1234` (R218). -/
theorem test_decode_A : decode (.line [0x30#8, 0x41#8, 0x31#8, 0x32#8, 0x33#8, 0x34#8])
    = .ok (.dataTiming ⟨some 0#2, [0x31#8, 0x32#8, 0x33#8, 0x34#8]⟩) := by decide

/-- `4t1230` and `12t1230` are no instruction (X5, X6), nor is the empty line (X1). -/
theorem test_decode_rejects :
    decode (.line (str "4t1230")) = .error (.noRow 0x34#8) ∧ decode (.line (str "12t1230")) = .error (.noRow 0x32#8)
    ∧ decode (.line []) = .error .emptyRemainder := by decide

set_option maxRecDepth 10000 in
/-- The table's fifteen words, as the table numbers their bits. -/
theorem test_decodeTableWord : [0x74, 0x54, 0x72, 0x52, 0x64, 0x44, 0x62, 0x42, 0x4F, 0x43, 0x53, 0x79, 0x59, 0x61, 0x41].all
    (fun w => (decodeTableWord 8 w).map Instr.letter == some (BitVec.ofNat 8 w)) = true := by decide

set_option maxRecDepth 10000 in
theorem test_decodeTableWord_refuses : decodeTableWord 8 0x78 = none ∧ decodeTableWord 8 0x00 = none := by decide

/-! ### What the instructions do -/

/-- E1, E39: scenario 1 of SLX, and an identifier above 11 bits that fits its field. -/
theorem test_t_encode :
    emits (.classicStd (.encode 0#4 (std 0x123#32 [0x11#8, 0x22#8, 0x33#8]))) (str "0t1233112233") = true
    ∧ emits (.classicStd (.encode 0#4 (std 0x800#32 [0x01#8]))) (str "0t800101") = true := by decide

/-- D1, X18, X21: scenario 2 of SLX, a payload both short and malformed, a malformed payload. -/
theorem test_t_decode :
    delivers (exec (.classicStd (.decode ⟨none, str "1233112233"⟩)) .reset) 0#2
      ⟨0x123#32, [0x11#8, 0x22#8, 0x33#8], 3#7, false, false, false, false⟩ = true
    ∧ drops (exec (.classicStd (.decode ⟨none, str "1232AG"⟩)) .reset) 6#3 = true
    ∧ drops (exec (.classicStd (.decode ⟨none, str "1232ABCG"⟩)) .reset) 7#3 = true := by decide

/-- E7, E40. -/
theorem test_T_encode :
    emits (.classicExt (.encode 1#4 ⟨0x1ABCDEF0#32, [0xDE#8, 0xAD#8], 0#7, true, false, false, false⟩)) (str "1T1ABCDEF02DEAD")
      = true
    ∧ emits (.classicExt (.encode 0#4 ⟨0xFFFFFFFF#32, [], 0#7, true, false, false, false⟩)) (str "0TFFFFFFFF0") = true := by
  decide

/-- D5, X11, X15. -/
theorem test_T_decode :
    delivers (exec (.classicExt (.decode ⟨some 1#2, str "1ABCDEF02DEAD"⟩)) .reset) 1#2
      ⟨0x1ABCDEF0#32, [0xDE#8, 0xAD#8], 2#7, true, false, false, false⟩ = true
    ∧ drops (exec (.classicExt (.decode ⟨none, str "1234567"⟩)) .reset) 2#3 = true
    ∧ drops (exec (.classicExt (.decode ⟨none, str "12345678"⟩)) .reset) 4#3 = true := by decide

/-- E45, E47: the code comes from the data's length and not from `dlc`; the data is not sent. -/
theorem test_r_encode :
    emits (.remoteStd (.encode 0#4 ⟨0x123#32, [1#8, 2#8, 3#8, 4#8], 0#7, false, true, false, false⟩)) (str "0r1234") = true
    ∧ emits (.remoteStd (.encode 0#4 ⟨0x123#32, [], 8#7, false, true, false, false⟩)) (str "0r1230") = true := by decide

/-- D9, X16: no payload is read, the code's value goes to `dlc`. -/
theorem test_r_decode :
    delivers (exec (.remoteStd (.decode ⟨none, str "123F"⟩)) .reset) 0#2 ⟨0x123#32, [], 64#7, false, true, false, false⟩
      = true
    ∧ drops (exec (.remoteStd (.decode ⟨none, str "123 "⟩)) .reset) 5#3 = true := by decide

/-- E11: scenario 3 of SLX as the spec corrects it. -/
theorem test_R_encode :
    emits (.remoteExt (.encode 2#4 ⟨0x200#32, [], 0#7, true, true, false, false⟩)) (str "2R000002000") = true := by decide

/-- D10, X11. -/
theorem test_R_decode :
    delivers (exec (.remoteExt (.decode ⟨none, str "1FFFFFFF8"⟩)) .reset) 0#2
      ⟨0x1FFFFFFF#32, [], 8#7, true, true, false, false⟩ = true
    ∧ drops (exec (.remoteExt (.decode ⟨none, str "1234567"⟩)) .reset) 2#3 = true := by decide

/-- E13, E43: the length code of 12 bytes; an FD frame marked remote loses its payload but not its letter. -/
theorem test_d_encode :
    emits (.fdStd (.encode 1#4 ⟨0x321#32, (List.range 12).map (BitVec.ofNat 8), 0#7, false, false, true, false⟩))
      (str "1d3219000102030405060708090A0B") = true
    ∧ emits (.fdStd (.encode 0#4 ⟨0x123#32, [1#8, 2#8], 0#7, false, true, true, false⟩)) (str "0d1232") = true := by decide

/-- D12, X20: the line of a 13-byte frame is short by three bytes. -/
theorem test_d_decode :
    delivers (exec (.fdStd (.decode ⟨none, str "1238" ++ rep 8 "01"⟩)) .reset) 0#2
      ⟨0x123#32, List.replicate 8 1#8, 8#7, false, false, true, false⟩ = true
    ∧ drops (exec (.fdStd (.decode ⟨some 0#2, str "100A" ++ rep 13 "AB"⟩)) .reset) 6#3 = true := by decide

/-- E14. -/
theorem test_D_encode :
    emits (.fdExt (.encode 2#4 ⟨0x12345678#32, List.replicate 16 0xA5#8, 0#7, true, false, true, false⟩))
      (str "2D12345678A" ++ rep 16 "A5") = true := by decide

/-- D14, X31: trailing characters are ignored. -/
theorem test_D_decode :
    delivers (exec (.fdExt (.decode ⟨none, str "000000009" ++ rep 12 "AB"⟩)) .reset) 0#2
      ⟨0#32, List.replicate 12 0xAB#8, 12#7, true, false, true, false⟩ = true
    ∧ delivers (exec (.fdExt (.decode ⟨none, str "1230000000000AA"⟩)) .reset) 0#2
      ⟨0x12300000#32, [], 0#7, true, false, true, false⟩ = true := by decide

/-- E16. -/
theorem test_b_encode :
    emits (.fdBrsStd (.encode 2#4 ⟨0x7E8#32, [0x10#8, 0x14#8, 0x49#8, 0x02#8, 0x01#8, 0x57#8, 0x41#8, 0x55#8, 0xCC#8, 0xCC#8,
      0xCC#8, 0xCC#8], 0#7, false, false, true, true⟩)) (str "2b7E891014490201574155CCCCCCCC") = true := by decide

/-- D15, X13. -/
theorem test_b_decode :
    delivers (exec (.fdBrsStd (.decode ⟨some 3#2, str "0010"⟩)) .reset) 3#2 ⟨0x001#32, [], 0#7, false, false, true, true⟩
      = true
    ∧ drops (exec (.fdBrsStd (.decode ⟨none, str "12X0"⟩)) .reset) 3#3 = true := by decide

set_option maxRecDepth 10000 in
/-- E19: the longest line. -/
theorem test_B_encode :
    emits (.fdBrsExt (.encode 3#4 ⟨0x1FFFFFFF#32, List.replicate 64 0xFF#8, 0#7, true, false, true, true⟩))
      (str "3B1FFFFFFFF" ++ rep 64 "FF") = true := by decide

set_option maxRecDepth 10000 in
/-- D18, X19: the longest line, and the same one byte short. -/
theorem test_B_decode :
    delivers (exec (.fdBrsExt (.decode ⟨some 3#2, str "1FFFFFFFF" ++ rep 64 "C3"⟩)) .reset) 3#2
      ⟨0x1FFFFFFF#32, List.replicate 64 0xC3#8, 64#7, true, false, true, true⟩ = true
    ∧ drops (exec (.fdBrsExt (.decode ⟨none, str "1FFFFFFFF" ++ rep 63 "C3"⟩)) .reset) 6#3 = true := by decide

set_option maxRecDepth 10000 in
/-- E31, E32: `CHAN_RANGE` before `LEN_RANGE`; no line. -/
theorem test_encode_refusals :
    goesTo (exec (.classicStd (.encode 15#4 (std 0#32 (List.replicate 65 0#8)))) .reset)
      (fun t => t.encErr == some 1#2 && t.encLine == []) = true
    ∧ goesTo (exec (.classicStd (.encode 0#4 (std 0#32 (List.replicate 65 0#8)))) .reset)
      (fun t => t.encErr == some 2#2 && t.encLine == []) = true := by decide

/-- X3, X9: no event, cause 1, the counter as it was. -/
theorem test_config_lines :
    [Instr.openChannel ⟨some 2#2, []⟩, .closeChannel ⟨some 0#2, []⟩, .setRate ⟨some 1#2, str "6"⟩,
      .setBitrate ⟨some 0#2, str "500000"⟩, .setFdRate ⟨some 3#2, str "2"⟩, .nominalTiming ⟨some 0#2, str "1234"⟩,
      .dataTiming ⟨some 0#2, str "1234"⟩].all
        (fun i => goesTo (exec i .reset) (fun t => t.frameReceived == [] && t.decCause == some 1#3 && t.dropcnt == 0#32))
      = true := by decide

/-! ### What a step does -/

/-- The state after reset with `l` received, its terminator next, and the receive pipeline to move. -/
def received (l : Line) : State := placeLine l .reset

/-- The state after reset with a move to come. -/
def moving (m : Move) : State := { State.reset with sched := [m] }

/-- X26, the wrong frame of R132, and X7, a line that begins with LF, each by one step. -/
theorem test_step_line :
    delivers (step (received (str "0t12300"))) 0#2 ⟨0x123#32, [], 0#7, false, false, false, false⟩ = true
    ∧ drops (step (received (0x0A#8 :: str "t1230"))) 1#3 = true
    ∧ goesTo (step (received (str "0t12300"))) (fun t => t.rxbuf == [] && t.rxlen == 0#8) = true := by decide

set_option maxRecDepth 10000 in
/-- A table word is the line of the very next step: the letter `t` alone, padded with NUL, has no identifier digits, and the
letter `O` is "not a frame". -/
theorem test_withFetchWord :
    drops (step (State.reset.withFetchWord 8 0x74)) 3#3 = true
    ∧ drops (step (State.reset.withFetchWord 8 0x4F)) 1#3 = true := by decide

/-- One encode move takes the first of two requests (P2, requests 1 and 4). -/
theorem test_step_encode :
    goesTo (step { State.reset with sched := [.encode], encIn := [⟨0#4, std 0x123#32 [0x11#8, 0x22#8, 0x33#8]⟩,
        ⟨4#4, std 0x123#32 []⟩] })
      (fun t => t.encLine == [str "0t1233112233"] && t.encIn == [(⟨4#4, std 0x123#32 []⟩ : Request)]) = true := by decide

/-- Reset withdraws what is pending and empties the buffer (P4). -/
theorem test_step_reset :
    goesTo (step { moving .reset with rxbuf := str "3D1234567", rxlen := 9#8, dropcnt := 1#32, encLine := [str "0t0000"] })
      (fun t => t.rxbuf == [] && t.rxlen == 0#8 && t.dropcnt == 0#32 && t.encLine == []) = true := by decide

/-- The wire image of two lines (R61). -/
theorem test_wire : wire [str "0t0000", str "2O"] = str "0t0000" ++ [0x0D#8] ++ str "2O" ++ [0x0D#8] := by decide

/-! ### Witnesses: something meets the hypotheses of every statement that has them -/

/-- A frame with `n` zero bytes and the given flags. -/
def fr (id : BitVec 32) (n : Nat) (ext rtr fd brs : Bool) : Frame := ⟨id, List.replicate n 0#8, 0#7, ext, rtr, fd, brs⟩

set_option maxRecDepth 10000 in
theorem witness_DecodeInvertsEncode :
    (Instr.fdBrsExt (.encode 15#4 (fr 0xFFFFFFFF#32 127 true true true true))).wellFormed = true
    ∧ (Instr.remoteStd (.decode ⟨some 3#2, List.replicate 137 0x46#8⟩)).wellFormed = true
    ∧ (Instr.dataTiming ⟨none, List.replicate 138 0x30#8⟩).wellFormed = true := by decide

theorem witness_EncodeInvertsDecode :
    decode (.line (str "3Y2")) = .ok (.setFdRate ⟨some 3#2, str "2"⟩)
    ∧ decode (.request ⟨9#4, fr 1#32 100 false true true false⟩) = .ok (.fdStd (.encode 9#4 (fr 1#32 100 false true true false)))
    := by decide

set_option maxRecDepth 10000 in
theorem witness_DecodedInstrWellFormed :
    (∃ i, (str "3O" ++ rep 137 "0").length ≤ 139 ∧ 0x0D#8 ∉ str "3O" ++ rep 137 "0"
      ∧ decode (.line (str "3O" ++ rep 137 "0")) = .ok i)
    ∧ ∃ i, (fr 0#32 127 true false false true).len ≤ 127 ∧ decode (.request ⟨4#4, fr 0#32 127 true false false true⟩) = .ok i :=
  ⟨⟨_, by decide, by decide, rfl⟩, ⟨_, by decide, rfl⟩⟩

theorem witness_LengthCodeTables :
    l2c? 13 = some 10#4 ∧ l2c? 64 = some 15#4 ∧ (16 ∈ boundaryLengths ∧ 13 ≤ 16) ∧ (8#4 : Nibble) ≤ 9#4
    ∧ (64 ∈ boundaryLengths) := by decide

theorem witness_IdentifierFieldOnEncode :
    (8 : Nat) ≤ 8 ∧ (0xFFF#32 : BitVec 32) ≤ 0xFFF#32 ∧ (0xFFF#32 : BitVec 32) < 0x1000#32 := by decide

theorem witness_AppendThenRead :
    3 + 3 ≤ (str "t12300").length ∧ (str "t12300").length < 3 + 4 := by decide

theorem witness_DefaultChannelIsZero :
    (∀ c, (str "4t1230").head? = some c → c ∉ channelDigits) ∧ ∀ c, ([] : Line).head? = some c → c ∉ channelDigits := by
  decide

/-- The requests at the edges of ENC's two checks. -/
theorem witness_EncodeProcedure :
    (3#4 : ChanReq) < 4#4 ∧ (3#4 : ChanReq) ≤ 3#4 ∧ 64 < (fr 0#32 65 false false false false).len
    ∧ (fr 0#32 64 true false true true).len ≤ 64 := by decide

theorem witness_EncodeFormsComplete :
    (Instr.fdBrsExt, rowFdBrsExt) ∈ frameRows ∧ (3#4 : ChanReq) ≤ 3#4 ∧ (fr 0#32 64 true false true true).len ≤ 64 :=
  ⟨by simp [frameRows], by decide, by decide⟩

theorem witness_EncodeRefusals :
    (Instr.remoteStd, rowRemoteStd) ∈ frameRows ∧ (3#4 : ChanReq) < 15#4
    ∧ ((0#4 : ChanReq) ≤ 3#4 ∧ 64 < (fr 0#32 65 false true false false).len)
    ∧ ((3#4 : ChanReq) ≤ 3#4 ∧ (fr 0#32 64 false true false false).len ≤ 64) :=
  ⟨by simp [frameRows], by decide, by decide, by decide⟩

theorem witness_EmittedLineProperties :
    (0#4 : ChanReq) ≤ 3#4 ∧ (fr 0xFFFFFFFF#32 0 false false false false).len ≤ 64
    ∧ (fr 0xFFFFFFFF#32 64 true false true true).len ≤ 64 := by decide

theorem witness_LineComesBackOnItsChannel :
    (3#4 : ChanReq) ≤ 3#4 ∧ (fr 0x1234#32 64 false true true false).len ≤ 64 := by decide

theorem witness_WhatTheLineDoesNotShow :
    (fr 0#32 1 false false false true).fd = false
    ∧ ((fr 0#32 0 false true true false).fd = true ∧ (fr 0#32 0 false true true false).len = 0)
    ∧ ((fr 0#32 13 false true false false).rtr = true ∧ l2c? (List.replicate 16 1#8).length = l2c? (fr 0#32 13 false true false false).len)
    := by decide

theorem witness_EncodeFormsFrame : ∃ t u,
    exec (.remoteExt (.encode 3#4 (fr 0#32 64 true true false false))) .reset = .next t ∧ t.encErr = some 0#2
    ∧ exec (.remoteExt (.encode 4#4 (fr 0#32 64 true true false false))) .reset = .next u ∧ u.encErr ≠ some 0#2 :=
  ⟨_, _, rfl, by decide, rfl, by decide⟩

/-- A line for each of the six causes: `t12`, `t12G`, `t123`, `t123G`, `t1231A`, `t1231AG`. The character `G` is a digit for
neither value of the parameter. -/
theorem witness_DecodeReportsFirstCause (lower : Bool) :
    (str "t12").length < 1 + 3
    ∧ (1 + 3 ≤ (str "t12G").length ∧ hexAt lower (str "t12G") 3 = none)
    ∧ ((∀ q : Fin 4, 1 ≤ q.val → hexAt lower (str "t123") q.val ≠ none) ∧ (str "t123").length = 1 + 3)
    ∧ ((∀ q : Fin 4, 1 ≤ q.val → hexAt lower (str "t123G") q.val ≠ none) ∧ 2 + 3 ≤ (str "t123G").length
        ∧ hexAt lower (str "t123G") (1 + 3) = none)
    ∧ ((∀ q : Fin 4, 1 ≤ q.val → hexAt lower (str "t1231A") q.val ≠ none) ∧ hexAt lower (str "t1231A") (1 + 3) = some 1#4
        ∧ (str "t1231A").length < 2 + 3 + 2 * c2l 1#4)
    ∧ ((∀ q : Fin 4, 1 ≤ q.val → hexAt lower (str "t1231AG") q.val ≠ none)
        ∧ hexAt lower (str "t1231AG") (1 + 3) = some 1#4 ∧ 2 + 3 + 2 * c2l 1#4 ≤ (str "t1231AG").length
        ∧ hexAt lower (str "t1231AG") 6 = none)
    ∧ rowClassicStd.rtr = false := by
  revert lower; decide

/-- The digits of `r123F`, and of `t1231AB` with its payload. -/
theorem witness_DecodeDeliversTheFrame (lower : Bool) :
    (∀ q : Fin 5, 1 ≤ q.val → hexAt lower (str "r123F") q.val = [0#4, 1#4, 2#4, 3#4, 15#4][q.val]?)
    ∧ ∀ q : Fin 7, 1 ≤ q.val → hexAt lower (str "t1231AB") q.val = [0#4, 1#4, 2#4, 3#4, 1#4, 10#4, 11#4][q.val]? := by
  revert lower; decide

theorem witness_ProducedFrameProperties : ∃ t e,
    rxLine (str "2R000002000") .reset = .next t ∧ e ∈ t.frameReceived.drop State.reset.frameReceived.length :=
  ⟨_, _, rfl, .head _⟩

theorem witness_TrailingCharactersIgnored : ∃ t,
    exec (.classicStd (.decode ⟨none, str "1230"⟩)) .reset = .next t ∧ t.decCause = some 0#3 :=
  ⟨_, rfl, by decide⟩

theorem witness_LowerHexParameter : rowClassicStd ∈ frameRows.map Prod.snd
    ∧ (∀ c ∈ (str "t1231AB").tail, isLowerHex c = false)
    ∧ ∃ f, decodeAs rowClassicStd false (str "t1231AB") = .frame f :=
  ⟨by decide, by decide, _, rfl⟩

theorem witness_ReceivedLinesFrame : ∃ t u v,
    (exec (.classicStd (.decode ⟨none, str "1230"⟩)) .reset = .next t ∧ t.decCause = some 0#3)
    ∧ (exec (.classicStd (.decode ⟨none, str "12"⟩)) .reset = .next u ∧ u.decCause ≠ some 0#3)
    ∧ exec (.setRate ⟨none, str "6"⟩) .reset = .next v :=
  ⟨_, _, _, ⟨rfl, by decide⟩, ⟨rfl, by decide⟩, rfl⟩

/-- The premises (a) to (c) with (d) and without it: 64 bytes and 63 bytes, at the edge of the identifier range; and a remote
frame. -/
theorem witness_EncodeThenDecode :
    [fr 0xFFF#32 64 false false true true, fr 0xFFF#32 63 false false true true, fr 0xFFFFFFFF#32 13 true true false false].all
      (fun f => decide ((3#4 : ChanReq) ≤ 3#4 ∧ f.len ≤ 64 ∧ (f.ext = true ∨ f.id ≤ 0xFFF#32)
        ∧ (f.brs = true → f.fd = true) ∧ ¬(f.fd = true ∧ f.rtr = true))) = true
    ∧ (fr 0xFFF#32 64 false false true true).len ∈ boundaryLengths
    ∧ ¬((fr 0xFFF#32 63 false false true true).rtr = true ∨ (fr 0xFFF#32 63 false false true true).len ∈ boundaryLengths)
    := by decide

theorem witness_DecodeThenEncode : ∃ f g,
    decodeRemainder Config.acceptLowerHex (str "t1231AB") = .frame f
    ∧ decodeRemainder Config.acceptLowerHex (str "R1FFFFFFF8") = .frame g ∧ (3#4 : ChanReq) ≤ 3#4 :=
  ⟨_, _, rfl, rfl, by decide⟩

theorem witness_OverRangeIdentifierIsNotReadBack :
    (0#4 : ChanReq) ≤ 3#4 ∧ (fr 0x1000#32 0 false false false false).len ≤ 64
    ∧ (0xFFF#32 : BitVec 32) < (fr 0x1000#32 0 false false false false).id := by decide

theorem witness_FdRemoteIsNotReadBack :
    (fr 0x123#32 0 false true true false).fd = true ∧ (fr 0x123#32 0 false true true false).rtr = true
    ∧ (fr 0x123#32 0 false true true false).id ≤ 0xFFF#32 ∧ (fr 0x123#32 0 false true true false).len = 0
    ∧ 0 < (fr 0x123#32 2 false true true false).len ∧ (fr 0x123#32 2 false true true false).len ≤ 64 := by decide

theorem witness_OtherFirstCharactersAreNoFrames :
    (∀ c, (dispatch (str "00t1230")).2.head? = some c → c ∉ frameLetters)
    ∧ (∀ c, (dispatch (str "2O")).2.head? = some c → c ∉ frameLetters)
    ∧ ∀ c, (dispatch []).2.head? = some c → c ∉ frameLetters := by decide

/-- The three cases of a character: the terminator, the last one there is room for, the first one there is none for. -/
theorem witness_LineAssemblerTakesOneCharacter :
    (moving .receive).sched = .receive :: [] ∧ (moving .receive).frameReceived = []
    ∧ (0x0A#8 : Byte) ≠ 0x0D#8 ∧ (138#8 : BitVec 8).toNat < 139 ∧ 139 ≤ (139#8 : BitVec 8).toNat
    ∧ { moving .receive with rxIn := str "t" }.rxIn = 0x74#8 :: [] := by decide

theorem witness_TerminatorEmptiesTheBuffer :
    (received (str "2O")).sched = .receive :: [] ∧ (received (str "2O")).frameReceived = []
    ∧ (received (str "2O")).rxIn = 0x0D#8 :: [] := by decide

/-- A line that is an instruction, and one that is none. -/
theorem witness_StepRunsTheReceivedLine :
    [received (str "2O"), received (str "9")].all
      (fun s => decide (s.sched = .receive :: [] ∧ s.frameReceived = [] ∧ s.rxIn = 0x0D#8 :: [])) = true
    ∧ decode (.line (received (str "2O")).rxbuf) = .ok (.openChannel ⟨some 2#2, []⟩)
    ∧ decode (.line (received (str "9")).rxbuf) = .error (.noRow 0x39#8) := by decide

set_option maxRecDepth 10000 in
theorem witness_WholeLineReception :
    let s := { State.reset with
      rxIn := str "3B1FFFFFFFF" ++ rep 64 "C3" ++ rep 10 "JUNK" ++ 0x0D#8 :: str "8"
      sched := List.replicate 180 Move.receive }
    0x0D#8 ∉ str "3B1FFFFFFFF" ++ rep 64 "C3" ++ rep 10 "JUNK"
    ∧ s.rxIn = str "3B1FFFFFFFF" ++ rep 64 "C3" ++ rep 10 "JUNK" ++ 0x0D#8 :: str "8" ∧ s.rxbuf = [] ∧ s.rxlen = 0#8 ∧ s.frameReceived = []
    ∧ s.sched = List.replicate ((str "3B1FFFFFFFF" ++ rep 64 "C3" ++ rep 10 "JUNK").length + 1) Move.receive ++ [] := by
  decide

theorem witness_PendingEventHoldsReception :
    { moving .receive with frameReceived := [⟨0#2, std 0x123#32 []⟩] }.sched = .receive :: []
    ∧ { moving .receive with frameReceived := [⟨0#2, std 0x123#32 []⟩] }.frameReceived ≠ [] := by decide

/-- A step for each move, for OutputsKeepTheirOrder. -/
theorem witness_OutputsKeepTheirOrder : ∀ m : Move, ∃ t, (moving m).sched = m :: [] ∧ step (moving m) = .next t := by
  intro m; cases m <;> exact ⟨_, rfl, rfl⟩

/-- A receive move that adds an event, an encode move that adds a line behind a pending one, and the taking of a pending
event and of a pending line with a partial line in the buffer, for OutputsKeepTheirOrder. -/
theorem witness_OutputsKeepTheirOrder_items :
    goesTo (step (received (str "t1230"))) (fun t => t.frameReceived.length == 1) = true
    ∧ goesTo (step { moving .encode with encIn := [⟨0#4, std 0x7FF#32 []⟩], encLine := [str "3t0000"] })
        (fun t => t.encLine == [str "3t0000", str "0t7FF0"]) = true
    ∧ goesTo (step { moving .takeEvent with frameReceived := [⟨0#2, std 0x123#32 []⟩], rxbuf := str "t1", rxlen := 2#8 })
        (fun t => t.frameReceived == [] && t.rxbuf == str "t1" && t.rxlen == 2#8) = true
    ∧ goesTo (step { moving .takeLine with encLine := [str "3t0000", str "0t7FF0"], rxbuf := str "t1", rxlen := 2#8 })
        (fun t => t.encLine == [str "0t7FF0"] && t.rxbuf == str "t1" && t.rxlen == 2#8) = true := by decide

/-- Receive moves that report a malformed line, a line that is no frame, a frame, and nothing. -/
theorem witness_DropCounterCounts : ∃ t u v w,
    (step (received (str "t12")) = .next t ∧ t.decCause = some 2#3 ∧ 2 ≤ (2#3 : BitVec 3).toNat)
    ∧ (step (received (str "2O")) = .next u ∧ u.decCause = some 1#3)
    ∧ (step (received (str "t1230")) = .next v ∧ v.decCause = some 0#3)
    ∧ (step (moving .receive) = .next w ∧ w.decCause = none) :=
  ⟨_, _, _, _, ⟨rfl, by decide, by decide⟩, ⟨rfl, by decide⟩, ⟨rfl, by decide⟩, ⟨rfl, rfl⟩⟩

/-- Moves that report a malformed line, that reset, and that do neither. -/
theorem witness_DropCounterOutput : ∃ t u v,
    (step (received (str "t12")) = .next t ∧ t.decCause = some 2#3 ∧ 2 ≤ (2#3 : BitVec 3).toNat)
    ∧ (moving .reset).sched = .reset :: [] ∧ step (moving .reset) = .next u
    ∧ (step (received (str "2O")) = .next v ∧ ¬∃ k, v.decCause = some k ∧ 2 ≤ k.toNat) :=
  ⟨_, _, _, ⟨rfl, by decide, by decide⟩, rfl, rfl, rfl, by decide⟩

theorem witness_ResetOperation : (moving .reset).sched = .reset :: [] := by decide

theorem witness_StepKeepsInvariant : ∃ t, (received (str "t12")).inv = true ∧ step (received (str "t12")) = .next t :=
  ⟨_, by decide, rfl⟩

theorem witness_StepRunsTheRequest :
    decode (.request ⟨3#4, fr 0x123#32 8 false true true true⟩) = .ok (.fdBrsStd (.encode 3#4 (fr 0x123#32 8 false true true true)))
    ∧ { moving .encode with encIn := [⟨3#4, fr 0x123#32 8 false true true true⟩] }.encIn
        = ⟨3#4, fr 0x123#32 8 false true true true⟩ :: [] := by decide

theorem witness_IdleStepHoldsTheState : State.reset.sched = [] := by decide

end Sys2Proof.Tests
end

/-! The scope of the model: what decodes is well-formed, what the line space returns, and that every operation goes on. -/

namespace Sys2Proof.Machine

/-! ### Well-formedness of what decodes -/

/-- A frame row's instruction is well-formed as its operand is for the flags of the row (R82). -/
theorem wellFormed_frameRow {p : (FrameOp → Instr) × FrameRow} (hp : p ∈ frameRows) (op : FrameOp) :
    (p.1 op).wellFormed = op.wellFormed p.2.ext p.2.fd p.2.brs p.2.rtr := by
  simp only [frameRows, List.mem_cons, List.not_mem_nil, or_false] at hp
  rcases hp with rfl | rfl | rfl | rfl | rfl | rfl | rfl | rfl <;> rfl

/-- A configuration row's instruction is well-formed as its line is one LA can hold. -/
theorem wellFormed_configRow {p : (RxLine → Instr) × Byte} (hp : p ∈ configRows) (l : RxLine) :
    (p.1 l).wellFormed = l.fits := by
  simp only [configRows, List.mem_cons, List.not_mem_nil, or_false] at hp
  rcases hp with rfl | rfl | rfl | rfl | rfl | rfl | rfl <;> rfl

/-- A line fits when its characters, digit and letter among them, are at most 139 and none is the terminator. -/
theorem fits_of_lineChars {letter : Byte} {l : RxLine} (hlen : (lineChars letter l).length ≤ 139)
    (hterm : Config.lineTerm ∉ lineChars letter l) : l.fits = true := by
  obtain ⟨digit, body⟩ := l
  have hbody : ∀ c ∈ body, c ≠ Config.lineTerm := by
    rintro c hc rfl
    cases digit <;> exact hterm (by simp [lineChars, hc])
  have hroom : (if digit.isSome then 1 else 0) + 1 + body.length ≤ 139 := by
    cases digit <;> simp [lineChars] at hlen ⊢ <;> omega
  simpa [RxLine.fits, hroom] using hbody

/-- Whatever a line LA can hold decodes to is well-formed (R10, R27). -/
theorem decodeLine_wellFormed {l : Line} {i : Instr} (hlen : l.length ≤ 139) (hterm : Config.lineTerm ∉ l)
    (h : decodeLine l = .ok i) : i.wellFormed = true := by
  obtain ⟨c, body, hs, hrow⟩ := decodeLine_rows h
  have hfits : RxLine.fits ⟨(splitDigit l).1, body⟩ = true := by
    rw [← lineChars_splitDigit hs] at hlen hterm
    exact fits_of_lineChars hlen hterm
  obtain ⟨p, hp, -, rfl⟩ | ⟨p, hp, -, rfl⟩ := hrow
  · rw [wellFormed_frameRow hp]; exact hfits
  · rw [wellFormed_configRow hp]; exact hfits

/-- The row a request selects carries the flags of its frame, so the request is well-formed when its length fits in 7
bits (R22, R83). -/
theorem selectInstr_wellFormed {q : Request} (hlen : q.frame.len ≤ 127) : (selectInstr q).wellFormed = true := by
  obtain ⟨p, hp, hi, hext, hfd, hbrs, hrtr⟩ := selectInstr_row q
  rw [hi, wellFormed_frameRow hp]
  simp only [FrameOp.wellFormed, Frame.fitsRow, hext, hfd, hbrs, hrtr]
  cases q.frame.fd <;> simp [hlen]

/-- Settles O3: a line's parts are its own characters, and a request's row carries its own flags. -/
theorem decodedInstrWellFormed : Obligations.DecodedInstrWellFormed := by
  refine ⟨fun l i hlen hterm h => decodeLine_wellFormed hlen hterm h, fun q i hlen h => ?_⟩
  obtain rfl : selectInstr q = i := Except.ok.inj h
  exact selectInstr_wellFormed hlen

/-! ### The line space -/

/-- Settles O11: the laws of reading, for an append at the end of the buffer. -/
theorem appendThenRead : Obligations.AppendThenRead := by
  intro buf v a n
  exact ⟨memRead_append_new buf v, memRead_append_old buf v, memRead_eq_none, by rw [append_eq, List.length_append]⟩

/-! ### Totality -/

/-- No instruction stops the block (R12, R166). -/
theorem exec_goesOn (i : Instr) (s : State) : ∃ t, exec i s = .next t := by
  obtain ⟨p, hp, op, rfl⟩ | ⟨p, hp, l, rfl⟩ := instr_rows i
  · cases op with
    | encode ch f =>
      obtain ⟨l, -, -, h⟩ | ⟨e, -, h⟩ := execEncode_cases hp ch f s
      · exact ⟨_, h⟩
      · exact ⟨_, h⟩
    | decode l =>
      obtain ⟨f, -, -, h⟩ | ⟨c, -, -, h⟩ := execDecode_cases hp l s
      · exact ⟨_, h⟩
      · exact ⟨_, h⟩
  · exact ⟨_, exec_configRow hp l s⟩

/-- A complete line never stops the block: it is delivered or dropped. -/
theorem rxLine_goesOn (l : Line) (s : State) : ∃ t, rxLine l s = .next t := by
  obtain ⟨ch, f, -, h⟩ | ⟨c, h⟩ := rxLine_cases l s
  · exact ⟨_, h⟩
  · exact ⟨_, h⟩

theorem receiveMove_goesOn (s : State) : ∃ t, receiveMove s = .next t := by
  obtain ⟨-, h⟩ | ⟨c, cs, -, -, -, h⟩ | ⟨cs, -, -, h⟩ := receiveMove_cases s
  · exact ⟨_, h⟩
  · exact ⟨_, h⟩
  · rw [h]; exact rxLine_goesOn _ _

/-- A request never stops the block: a line is emitted or an error reported. -/
theorem encodeRequest_goesOn (q : Request) (s : State) : ∃ t, encodeRequest q s = .next t := by
  obtain ⟨l, -, h⟩ | ⟨e, h⟩ := encodeRequest_cases q s
  · exact ⟨_, h⟩
  · exact ⟨_, h⟩

theorem encodeMove_goesOn (s : State) : ∃ t, encodeMove s = .next t := by
  obtain ⟨-, h⟩ | ⟨q, qs, -, h⟩ := encodeMove_cases s
  · exact ⟨_, h⟩
  · rw [h]; exact encodeRequest_goesOn _ _

theorem act_goesOn (m : Move) (s : State) : ∃ t, act m s = .next t := by
  cases m with
  | receive => exact receiveMove_goesOn s
  | encode => exact encodeMove_goesOn s
  | takeEvent => exact ⟨takeEvent s, rfl⟩
  | takeLine => exact ⟨takeLine s, rfl⟩
  | reset => exact ⟨applyReset s, rfl⟩

/-- No step stops the block: an idle step holds the state, any other is a move (R12, R244). -/
theorem step_goesOn (s : State) : ∃ t, step s = .next t := by
  cases h : s.sched with
  | nil => exact ⟨s, step_nil h⟩
  | cons m ms => rw [step_cons h]; exact act_goesOn m _

/-- Settles O47: every outcome of an instruction and of a move is a next state. -/
theorem everyStepGoesOn : Obligations.EveryStepGoesOn := ⟨exec_goesOn, step_goesOn⟩

end Sys2Proof.Machine

/-! What every move keeps and counts: the invariant of a run, what a received line leaves unchanged, and the drop
counter. -/

namespace Sys2Proof.Machine

/-! ### The invariant -/

/-- The invariant, as a proposition. -/
theorem inv_iff (s : State) : s.inv = true ↔
    Memory.wf s = true ∧ s.frameReceived.length ≤ 1 ∧ (∀ e ∈ s.frameReceived, producedFrame e.frame = true)
      ∧ (∀ l ∈ s.encLine, emittedLine l = true) ∧ (s.dropcnt = 0#32 ∨ Config.hasDropCounter = true) := by
  simp [State.inv, and_assoc]

/-! The invariant does not speak of the inputs, of `dec_cause` or of `enc_err`. -/

@[simp] theorem inv_setSched (ms : List Move) (s : State) : (setSched ms s).inv = s.inv := rfl
@[simp] theorem inv_setRxIn (cs : List Byte) (s : State) : (setRxIn cs s).inv = s.inv := rfl
@[simp] theorem inv_setEncIn (qs : List Request) (s : State) : (setEncIn qs s).inv = s.inv := rfl
@[simp] theorem inv_noCause (s : State) : (noCause s).inv = s.inv := rfl
@[simp] theorem inv_noError (s : State) : (noError s).inv = s.inv := rfl
@[simp] theorem inv_recordError (e : EncError) (s : State) : (recordError e s).inv = s.inv := rfl

theorem storeChar_inv {s : State} {c : Byte} (hc : c ≠ Config.lineTerm) (h : s.inv = true) :
    (storeChar c s).inv = true := by
  rw [inv_iff] at h ⊢
  obtain ⟨hwf, hrest⟩ := h
  exact ⟨storeChar_wf hc hwf, hrest⟩

theorem clearLine_inv {s : State} (h : s.inv = true) : (clearLine s).inv = true := by
  rw [inv_iff] at h ⊢
  obtain ⟨-, hrest⟩ := h
  exact ⟨clearLine_wf s, hrest⟩

/-- A counter that does not exist stays 0 under a drop (R31). -/
theorem recordDrop_inv {s : State} (c : DropCause) (h : s.inv = true) : (recordDrop c s).inv = true := by
  rw [inv_iff] at h ⊢
  obtain ⟨hwf, hone, hprod, hemit, hcnt⟩ := h
  refine ⟨hwf, hone, hprod, hemit, ?_⟩
  cases hp : Config.hasDropCounter with
  | true => exact .inr rfl
  | false =>
    rw [recordDrop_dropcnt, countDrop_absent hp]
    exact .inl (by simpa [hp] using hcnt)

/-- A frame is delivered only while no event is pending (R236), so it is then the only one. -/
theorem deliver_inv {s : State} (ch : Chan) {f : Frame} (hf : producedFrame f = true) (hnone : s.frameReceived = [])
    (h : s.inv = true) : (deliver ch f s).inv = true := by
  rw [inv_iff] at h ⊢
  obtain ⟨hwf, -, -, hemit, hcnt⟩ := h
  exact ⟨hwf, by simp [hnone], by simp [hnone, hf], hemit, hcnt⟩

theorem emitLine_inv {s : State} {l : Line} (hl : emittedLine l = true) (h : s.inv = true) :
    (emitLine l s).inv = true := by
  rw [inv_iff] at h ⊢
  obtain ⟨hwf, hone, hprod, hemit, hcnt⟩ := h
  refine ⟨hwf, hone, hprod, ?_, hcnt⟩
  rw [emitLine_encLine, List.forall_mem_append]
  exact ⟨hemit, by simpa using hl⟩

theorem takeEvent_inv {s : State} (h : s.inv = true) : (takeEvent s).inv = true := by
  rw [inv_iff] at h ⊢
  obtain ⟨hwf, hone, hprod, hemit, hcnt⟩ := h
  exact ⟨hwf, by rw [takeEvent_frameReceived, List.length_tail]; omega, fun e he => hprod e (List.mem_of_mem_tail he), hemit, hcnt⟩

theorem takeLine_inv {s : State} (h : s.inv = true) : (takeLine s).inv = true := by
  rw [inv_iff] at h ⊢
  obtain ⟨hwf, hone, hprod, hemit, hcnt⟩ := h
  exact ⟨hwf, hone, hprod, fun l hl => hemit l (List.mem_of_mem_tail hl), hcnt⟩

/-- The state after reset meets the invariant whether or not the counter exists: its count is 0. -/
theorem reset_inv : State.reset.inv = true :=
  (inv_iff _).2 ⟨reset_wf, by simp [State.reset], by simp [State.reset], by simp [State.reset], .inl rfl⟩

theorem applyReset_inv (s : State) : (applyReset s).inv = true := reset_inv

/-- A complete line keeps the invariant when no event is pending: it is delivered as a frame Decode can produce, or
dropped. -/
theorem rxLine_inv {s t : State} {l : Line} (hnone : s.frameReceived = []) (h : s.inv = true)
    (ht : rxLine l s = .next t) : t.inv = true := by
  obtain ⟨ch, f, hf, hx⟩ | ⟨c, hx⟩ := rxLine_cases l s
  · rw [hx] at ht; cases ht; exact deliver_inv ch hf hnone h
  · rw [hx] at ht; cases ht; exact recordDrop_inv c h

theorem receiveMove_inv {s t : State} (h : s.inv = true) (ht : receiveMove s = .next t) : t.inv = true := by
  obtain ⟨-, hx⟩ | ⟨c, cs, -, -, hc, hx⟩ | ⟨cs, hnone, -, hx⟩ := receiveMove_cases s
  · rw [hx] at ht; cases ht; rwa [inv_noCause]
  · rw [hx] at ht; cases ht
    rw [inv_noCause]
    exact storeChar_inv hc (by rwa [inv_setRxIn])
  · rw [hx] at ht
    exact rxLine_inv (by simpa using hnone) (clearLine_inv (by rwa [inv_setRxIn])) ht

theorem encodeRequest_inv {s t : State} {q : Request} (h : s.inv = true) (ht : encodeRequest q s = .next t) :
    t.inv = true := by
  obtain ⟨l, hl, hx⟩ | ⟨e, hx⟩ := encodeRequest_cases q s
  · rw [hx] at ht; cases ht; exact emitLine_inv hl h
  · rw [hx] at ht; cases ht; rwa [inv_recordError]

theorem encodeMove_inv {s t : State} (h : s.inv = true) (ht : encodeMove s = .next t) : t.inv = true := by
  obtain ⟨-, hx⟩ | ⟨q, qs, -, hx⟩ := encodeMove_cases s
  · rw [hx] at ht; cases ht; rwa [inv_noError]
  · rw [hx] at ht
    exact encodeRequest_inv (by rwa [inv_setEncIn]) ht

theorem act_inv {m : Move} {s t : State} (h : s.inv = true) (ht : act m s = .next t) : t.inv = true := by
  cases m with
  | receive => exact receiveMove_inv h ht
  | encode => exact encodeMove_inv h ht
  | takeEvent => cases ht; exact takeEvent_inv h
  | takeLine => cases ht; exact takeLine_inv h
  | reset => cases ht; exact applyReset_inv s

/-- Settles O45: an idle step holds the state, and every move keeps the invariant. -/
theorem stepKeepsInvariant : Obligations.StepKeepsInvariant := by
  intro s t h ht
  cases hs : s.sched with
  | nil => rw [step_nil hs] at ht; cases ht; exact h
  | cons m ms =>
    rw [step_cons hs] at ht
    exact act_inv (by rwa [inv_setSched]) ht

/-- Settles O46: every pending item is withdrawn and the count is 0. -/
theorem resetMeetsInvariant : Obligations.ResetMeetsInvariant := reset_inv

/-- Settles O44: the fields of the reset state are those of R36. -/
theorem stateAfterReset : Obligations.StateAfterReset := by
  unfold Obligations.StateAfterReset
  exact ⟨rfl, rfl, rfl, rfl, rfl, rfl, rfl⟩

/-! ### What received lines leave unchanged -/

/-- What a drop does to the counter (R31): one more on the causes 2 to 7 where the counter exists. -/
theorem countDrop_eq (c : DropCause) (n : BitVec 32) :
    countDrop c n = if 2 ≤ c.code.toNat ∧ Config.hasDropCounter = true then n + 1#32 else n := by
  simp [countDrop, BitVec.le_def]

/-- A drop never carries the code of a delivered frame (R231). -/
theorem dropCause_code_ne_zero (c : DropCause) : c.code ≠ 0#3 := by
  cases c <;> decide

/-- A drop that changes the counter has a cause of 2 to 7, and the counter exists. -/
theorem countDrop_ne {c : DropCause} {n : BitVec 32} (h : countDrop c n ≠ n) :
    Config.hasDropCounter = true ∧ countDrop c n = n + 1#32 ∧ 2 ≤ c.code.toNat := by
  rw [countDrop_eq] at h ⊢
  split at h
  · rename_i hc
    obtain ⟨hcode, hhas⟩ := hc
    exact ⟨hhas, if_pos ⟨hcode, hhas⟩, hcode⟩
  · exact absurd rfl h

/-- The outcomes of a received line of any of the fifteen types: one event, or a drop. -/
theorem execReceived_cases {i : Instr} (s : State)
    (hi : (∃ p ∈ frameRows, ∃ l, i = p.1 (.decode l)) ∨ ∃ p ∈ configRows, ∃ l, i = p.1 l) :
    (∃ ch f, exec i s = .next (deliver ch f s)) ∨ ∃ c, exec i s = .next (recordDrop c s) := by
  obtain ⟨p, hp, l, rfl⟩ | ⟨p, hp, l, rfl⟩ := hi
  · obtain ⟨f, -, -, hx⟩ | ⟨c, -, -, hx⟩ := execDecode_cases hp l s
    · exact .inl ⟨_, f, hx⟩
    · exact .inr ⟨c, hx⟩
  · exact .inr ⟨_, exec_configRow hp l s⟩

/-- Settles O28: a received line delivers one event or is dropped, and neither touches anything else. -/
theorem receivedLinesFrame : Obligations.ReceivedLinesFrame := by
  intro i s t hi ht
  obtain ⟨ch, f, hx⟩ | ⟨c, hx⟩ := execReceived_cases s hi
  · rw [hx] at ht; cases ht
    refine ⟨rfl, rfl, rfl, rfl, fun _ _ => rfl, rfl, rfl, rfl, fun _ => ⟨rfl, _, rfl⟩, ?_, ?_⟩
    · intro hne; exact absurd rfl hne
    · intro hne; exact absurd rfl hne
  · rw [hx] at ht; cases ht
    refine ⟨rfl, rfl, rfl, rfl, fun _ _ => rfl, rfl, rfl, rfl, ?_, fun _ => rfl, ?_⟩
    · intro h0
      exact absurd (Option.some.inj h0) (dropCause_code_ne_zero c)
    · intro hne
      obtain ⟨hhas, hadd, hcode⟩ := countDrop_ne hne
      exact ⟨hhas, hadd, _, rfl, hcode⟩

/-! ### The drop counter -/

/-- `dec_cause` carries a cause that counts, one of 2 to 7 (R31, R231). -/
def ReportsCountedDrop (s : State) : Prop := ∃ k, s.decCause = some k ∧ 2 ≤ k.toNat

/-- No cause, a frame and "not a frame" are no drops that count (R31). -/
theorem not_reportsCountedDrop {s : State}
    (h : s.decCause = none ∨ s.decCause = some 0#3 ∨ s.decCause = some 1#3) : ¬ReportsCountedDrop s := by
  rintro ⟨k, hk, hk2⟩
  obtain hc | hc | hc := h
  · cases hc.symm.trans hk
  · cases hc.symm.trans hk; exact absurd hk2 (by decide)
  · cases hc.symm.trans hk; exact absurd hk2 (by decide)

/-- A receive move that reports a cause of 2 to 7 adds one where the counter exists (R31, R195). -/
theorem receiveMove_dropcnt_of_drop {s t : State} (h : receiveMove s = .next t) (hd : ReportsCountedDrop t) :
    t.dropcnt = if Config.hasDropCounter then s.dropcnt + 1#32 else s.dropcnt := by
  obtain ⟨hnone, -⟩ | ⟨c, hc, hcnt⟩ := receiveMove_counts h
  · exact absurd hd (not_reportsCountedDrop (hnone.imp_right .inl))
  · obtain ⟨k, hk, hk2⟩ := hd
    obtain rfl : c.code = k := Option.some.inj (hc.symm.trans hk)
    simp [hcnt, countDrop_eq, hk2]

/-- A receive move that reports no cause of 2 to 7 leaves the counter. -/
theorem receiveMove_dropcnt_of_noDrop {s t : State} (h : receiveMove s = .next t) (hd : ¬ReportsCountedDrop t) :
    t.dropcnt = s.dropcnt := by
  obtain ⟨-, hcnt⟩ | ⟨c, hc, hcnt⟩ := receiveMove_counts h
  · exact hcnt
  · have hcode : ¬ 2 ≤ c.code.toNat := fun h2 => hd ⟨c.code, hc, h2⟩
    simp [hcnt, countDrop_eq, hcode]

theorem step_reset_dropcnt {s t : State} {ms : List Move} (hs : s.sched = .reset :: ms) (h : step s = .next t) :
    t.dropcnt = 0#32 := by
  rw [step_cons hs] at h
  cases h
  rfl

theorem step_receive_dropcnt_of_drop {s t : State} {ms : List Move} (hs : s.sched = .receive :: ms)
    (h : step s = .next t) (hd : ReportsCountedDrop t) :
    t.dropcnt = if Config.hasDropCounter then s.dropcnt + 1#32 else s.dropcnt := by
  rw [step_cons hs] at h
  exact receiveMove_dropcnt_of_drop (s := setSched ms s) h hd

/-- Only reset and a receive move that reports a cause of 2 to 7 change the counter. -/
theorem step_dropcnt_unchanged {s t : State} {m : Move} {ms : List Move} (hs : s.sched = m :: ms)
    (h : step s = .next t) (hm : m ≠ .reset) (hd : ¬(m = .receive ∧ ReportsCountedDrop t)) :
    t.dropcnt = s.dropcnt := by
  rw [step_cons hs] at h
  cases m with
  | receive => exact receiveMove_dropcnt_of_noDrop (s := setSched ms s) h (fun hr => hd ⟨rfl, hr⟩)
  | encode => exact encodeMove_dropcnt (s := setSched ms s) h
  | takeEvent => cases h; rfl
  | takeLine => cases h; rfl
  | reset => exact absurd rfl hm

/-- Settles O42: by the move, and for a receive move by whether its cause counts. -/
theorem dropCounterCounts : Obligations.DropCounterCounts := by
  intro s t m ms hs h
  refine ⟨?_, ?_, ?_, ?_⟩
  · rintro rfl
    exact step_reset_dropcnt hs h
  · rintro rfl k hk hk2
    exact step_receive_dropcnt_of_drop hs h ⟨k, hk, hk2⟩
  · rintro rfl hcause
    exact step_dropcnt_unchanged hs h (by decide) (fun hd => not_reportsCountedDrop hcause hd.2)
  · intro hm
    refine step_dropcnt_unchanged hs h ?_ ?_
    · rintro rfl; simp at hm
    · rintro ⟨rfl, -⟩; simp at hm

/-- What the output shows is the counter (R31). -/
theorem eq_dropcnt_of_dropcntOut {s : State} {n : BitVec 32} (h : dropcntOut s = some n) : n = s.dropcnt := by
  cases hp : Config.hasDropCounter with
  | false => simp [dropcntOut_absent hp] at h
  | true => simpa [dropcntOut_present hp, eq_comm] using h

/-- Settles O51: the output is the counter where it exists, so what the moves do to it is what they do to the counter. -/
theorem dropCounterOutput : Obligations.DropCounterOutput := by
  refine ⟨?_, fun _ _ => eq_dropcnt_of_dropcntOut, ?_⟩
  · intro s
    simp [dropcntOut]
  · intro s t m ms hs h
    refine ⟨?_, ?_, ?_⟩
    · rintro rfl n hn
      exact (eq_dropcnt_of_dropcntOut hn).trans (step_reset_dropcnt hs h)
    · rintro rfl hd
      have hcnt := step_receive_dropcnt_of_drop hs h hd
      cases hp : Config.hasDropCounter with
      | false => simp [dropcntOut_absent hp]
      | true => simp [dropcntOut_present hp, hcnt, hp]
    · intro hm hd
      rw [dropcntOut, dropcntOut, step_dropcnt_unchanged hs h hm hd]

end Sys2Proof.Machine

/-! What the moves do to the line buffer and the outputs: the line assembler, the bound on a line, the order of the outputs,
and that the two agents do not touch each other. -/

namespace Sys2Proof.Machine

/-! ### What the encode forms leave unchanged -/

/-- An encoder error never carries the code of an emitted line (R232). -/
theorem encError_code_ne_zero (e : EncError) : e.code ≠ 0#2 := by
  cases e <;> decide

/-- Settles O21: an encode form emits one line or records an error, and neither touches anything else. -/
theorem encodeFormsFrame : Obligations.EncodeFormsFrame := by
  intro p hp ch f s t ht
  obtain ⟨l, -, -, hx⟩ | ⟨e, -, hx⟩ := execEncode_cases hp ch f s
  · rw [hx] at ht; cases ht
    exact ⟨rfl, rfl, rfl, rfl, fun _ _ => rfl, rfl, rfl, rfl, rfl, fun _ => ⟨l, rfl⟩, fun hne => absurd rfl hne⟩
  · rw [hx] at ht; cases ht
    exact ⟨rfl, rfl, rfl, rfl, fun _ _ => rfl, rfl, rfl, rfl, rfl,
      fun h0 => absurd (Option.some.inj h0) (encError_code_ne_zero e), fun _ => rfl⟩

/-! ### The agents' moves, by what is presented to them -/

theorem receiveMove_of_idle {s : State} (h : s.frameReceived ≠ [] ∨ s.rxIn = []) :
    receiveMove s = .next (noCause s) := by
  obtain ⟨-, hx⟩ | ⟨c, cs, hf, hr, -, -⟩ | ⟨cs, hf, hr, -⟩ := receiveMove_cases s
  · exact hx
  · simp [hf, hr] at h
  · simp [hf, hr] at h

theorem receiveMove_of_cons {s : State} {c : Byte} {cs : List Byte} (hf : s.frameReceived = []) (hr : s.rxIn = c :: cs) :
    receiveMove s = rxChar c (setRxIn cs s) := by
  simp [receiveMove, hf, hr]

theorem rxChar_lineTerm (s : State) : rxChar Config.lineTerm s = rxLine s.rxbuf (clearLine s) := if_pos rfl

theorem rxChar_other {c : Byte} (hc : c ≠ Config.lineTerm) (s : State) :
    rxChar c s = .next (noCause (storeChar c s)) := if_neg hc

theorem encodeMove_of_nil {s : State} (h : s.encIn = []) : encodeMove s = .next (noError s) := by
  simp [encodeMove, h]

theorem encodeMove_of_cons {s : State} {q : Request} {qs : List Request} (h : s.encIn = q :: qs) :
    encodeMove s = encodeRequest q (setEncIn qs s) := by
  simp [encodeMove, h]

theorem rxLine_of_ok {l : Line} {i : Instr} (h : decode (.line l) = .ok i) (s : State) : rxLine l s = exec i s := by
  simp [rxLine, h]

theorem rxLine_of_error {l : Line} {e : Reject} (h : decode (.line l) = .error e) (s : State) :
    rxLine l s = .next (recordDrop .notFrame s) := by
  simp [rxLine, h]

theorem encodeRequest_of_ok {q : Request} {i : Instr} (h : decode (.request q) = .ok i) (s : State) :
    encodeRequest q s = exec i s := by
  simp [encodeRequest, h]

/-! ### The line assembler -/

section ReceiveStep

variable {s : State} {ms : List Move} {cs : List Byte}

/-- A receive move at the terminator: the buffered line, with the buffer emptied (R58). -/
theorem step_receive_lineTerm (hs : s.sched = .receive :: ms) (hf : s.frameReceived = [])
    (hr : s.rxIn = Config.lineTerm :: cs) :
    step s = rxLine s.rxbuf (clearLine (setRxIn cs (setSched ms s))) := by
  rw [step_cons hs]
  exact (receiveMove_of_cons (s := setSched ms s) hf hr).trans (rxChar_lineTerm _)

/-- A receive move at any other character: it is stored, or discarded (R58). -/
theorem step_receive_other {c : Byte} (hs : s.sched = .receive :: ms) (hf : s.frameReceived = [])
    (hr : s.rxIn = c :: cs) (hc : c ≠ Config.lineTerm) :
    step s = .next (noCause (storeChar c (setRxIn cs (setSched ms s)))) := by
  rw [step_cons hs]
  exact (receiveMove_of_cons (s := setSched ms s) hf hr).trans (rxChar_other hc _)

end ReceiveStep

theorem hasRoom_of_lt {s : State} (h : s.rxlen.toNat < 139) : hasRoom s = true := decide_eq_true h

theorem hasRoom_of_le {s : State} (h : 139 ≤ s.rxlen.toNat) : hasRoom s = false := decide_eq_false (Nat.not_lt.2 h)

/-- Settles O35: the terminator, a character there is room for, a character there is none for. -/
theorem lineAssemblerTakesOneCharacter : Obligations.LineAssemblerTakesOneCharacter := by
  intro s ms c cs hs hf hr
  refine ⟨?_, ?_, ?_⟩
  · rintro rfl
    exact step_receive_lineTerm hs hf hr
  · intro hc hlt
    have hroom : hasRoom (setRxIn cs (setSched ms s)) = true := hasRoom_of_lt hlt
    exact ⟨_, step_receive_other hs hf hr hc, by simp [hroom, append_eq, hf]⟩
  · intro hc hle
    have hroom : hasRoom (setRxIn cs (setSched ms s)) = false := hasRoom_of_le hle
    exact ⟨_, step_receive_other hs hf hr hc, by simp [hroom, hf]⟩

/-- Settles O36: the line is delivered or dropped, with the buffer already empty. -/
theorem terminatorEmptiesTheBuffer : Obligations.TerminatorEmptiesTheBuffer := by
  intro s ms cs hs hf hr
  rw [step_receive_lineTerm hs hf hr]
  obtain ⟨ch, f, -, hx⟩ | ⟨c, hx⟩ := rxLine_cases s.rxbuf (clearLine (setRxIn cs (setSched ms s)))
  · exact ⟨_, hx, by simp⟩
  · exact ⟨_, hx, by simp⟩

/-- Settles O48: the buffered line is run at the state with the buffer emptied, or dropped as "not a frame". -/
theorem stepRunsTheReceivedLine : Obligations.StepRunsTheReceivedLine := by
  intro s ms cs hs hf hr
  rw [step_receive_lineTerm hs hf hr]
  refine ⟨fun i hi => rxLine_of_ok hi _, fun e he => ?_⟩
  rw [rxLine_of_error he, recordDrop_notFrame]
  rfl

/-- Settles O49: an encode move runs its request, and a request runs what it decodes to. -/
theorem stepRunsTheRequest : Obligations.StepRunsTheRequest := by
  intro s ms q qs i hs hq hi
  rw [step_cons hs]
  exact (encodeMove_of_cons (s := setSched ms s) hq).trans (encodeRequest_of_ok hi _)

/-! ### A whole line -/

theorem runSteps_one (s : State) : runSteps 1 s = step s := by
  simp only [runSteps]
  cases step s <;> rfl

theorem runSteps_succ_of_next {s t : State} (h : step s = .next t) (k : Nat) : runSteps (k + 1) s = runSteps k t := by
  simp [runSteps, h]

/-- Storing a character and then appending `l` holds the same first 139 characters as appending both: a character is
discarded only behind 139 others (R59). -/
theorem storeChar_take {s : State} (h : Memory.wf s = true) (c : Byte) (l : Line) :
    ((storeChar c s).rxbuf ++ l).take 139 = (s.rxbuf ++ c :: l).take 139 := by
  obtain ⟨hlen, hle, -⟩ := (wf_iff s).1 h
  rw [storeChar_rxbuf]
  by_cases hlt : s.rxlen.toNat < 139
  · simp [hasRoom_of_lt hlt, append_eq]
  · have hfull : s.rxbuf.length = 139 := by omega
    simp [hasRoom_of_le (Nat.not_lt.1 hlt), hfull]

/-- The characters of a line behind those already in the buffer, then the terminator: one `RXLINE` on the first 139 of
them all. -/
theorem runSteps_line (l : Line) (rest : List Byte) (ms : List Move) (s : State) (hl : Config.lineTerm ∉ l)
    (hwf : Memory.wf s = true) (hf : s.frameReceived = []) (hr : s.rxIn = l ++ Config.lineTerm :: rest)
    (hs : s.sched = List.replicate (l.length + 1) Move.receive ++ ms) :
    runSteps (l.length + 1) s
      = rxLine ((s.rxbuf ++ l).take 139) (clearLine (setRxIn rest (setSched ms s))) := by
  induction l generalizing s with
  | nil =>
    obtain ⟨-, hle, -⟩ := (wf_iff s).1 hwf
    rw [List.append_nil, List.take_of_length_le hle]
    exact (runSteps_one s).trans (step_receive_lineTerm hs hf hr)
  | cons c l ih =>
    obtain ⟨hc, hl⟩ := List.ne_and_not_mem_of_not_mem_cons hl
    have hc := Ne.symm hc
    have hwf' := storeChar_wf (s := setRxIn (l ++ Config.lineTerm :: rest)
      (setSched (List.replicate (l.length + 1) .receive ++ ms) s)) hc hwf
    calc runSteps (l.length + 1 + 1) s
        = runSteps (l.length + 1) (noCause (storeChar c (setRxIn (l ++ Config.lineTerm :: rest)
            (setSched (List.replicate (l.length + 1) .receive ++ ms) s)))) :=
          runSteps_succ_of_next (step_receive_other hs hf hr hc) _
      _ = rxLine (((storeChar c s).rxbuf ++ l).take 139) (noCause (clearLine (setRxIn rest (setSched ms s)))) :=
          ih _ hl hwf' hf rfl rfl
      _ = rxLine ((s.rxbuf ++ c :: l).take 139) (clearLine (setRxIn rest (setSched ms s))) := by
          rw [storeChar_take hwf, rxLine_noCause]

/-- Settles O37: the run of a line's characters, from an empty buffer. -/
theorem wholeLineReception : Obligations.WholeLineReception := by
  intro l rest ms s hl hbuf hlen hf hr hs
  have hwf : Memory.wf s = true := (wf_iff s).2 (by simp [hbuf, hlen])
  have hempty : clearLine (setRxIn rest (setSched ms s)) = { s with sched := ms, rxIn := rest } := by
    rw [clearLine, ← hbuf, ← hlen]
    rfl
  rw [runSteps_line l rest ms s hl hwf hf hr hs, hempty, hbuf, List.nil_append]

/-! ### The bound on a line -/

/-- DEC reads at most 138 characters of a remainder: letter, 8 identifier digits, length code, 128 payload digits (R59). -/
theorem decodeAs_take (row : FrameRow) (lower : Bool) (s : Line) {k : Nat} (hk : 138 ≤ k) :
    decodeAs row lower (s.take k) = decodeAs row lower s := by
  obtain ⟨-, hw⟩ := idWidth_le row
  have hcode : (s.take k)[1 + row.idWidth]? = s[1 + row.idWidth]? := List.getElem?_take_of_lt (by omega)
  have hpayload (id : Nat) (code : Nibble) :
      decodePayload row lower (s.take k) id (c2l code) = decodePayload row lower s id (c2l code) := by
    have hle := c2l_le code
    simp only [decodePayload, memRead_take (s := s) (show 2 + row.idWidth + 2 * c2l code ≤ k by omega)]
  simp only [decodeAs, decodeCode, memRead_take (s := s) (show 1 + row.idWidth ≤ k by omega), hcode, hpayload]

theorem decodeRemainder_take (lower : Bool) (s : Line) {k : Nat} (hk : 138 ≤ k) :
    decodeRemainder lower (s.take k) = decodeRemainder lower s := by
  obtain ⟨k, rfl⟩ := Nat.exists_eq_add_of_lt hk
  cases s with
  | nil => rfl
  | cons c body =>
    cases hrow : frameRowOf c with
    | none => simp [decodeRemainder, hrow]
    | some row =>
      have := decodeAs_take row lower (c :: body) hk
      simpa [decodeRemainder, hrow] using this

/-- Cutting a line at 139 characters keeps its channel and cuts its remainder at no fewer than 138. -/
theorem dispatch_take (l : Line) :
    ∃ k, 138 ≤ k ∧ dispatch (l.take 139) = ((dispatch l).1, (dispatch l).2.take k) := by
  obtain ⟨h, hc⟩ | ⟨ch, rest, rfl, h⟩ := splitDigit_cases l
  · refine ⟨139, by omega, ?_⟩
    cases l with
    | nil => rfl
    | cons c body => simp [dispatch, splitDigit_other (hc c rfl)]
  · exact ⟨138, Nat.le_refl _, by simp [dispatch]⟩

/-- Settles O38: the remainder of the cut line holds every character DEC reads. -/
theorem longLineHasSameOutcome : Obligations.LongLineHasSameOutcome := by
  intro l s
  obtain ⟨k, hk, hd⟩ := dispatch_take l
  rw [rxLine_eq, rxLine_eq, hd, decodeRemainder_take _ _ hk]

/-! ### The order of the outputs -/

/-- A complete line touches no input and nothing of ENC's, and adds at most one event behind those pending. -/
theorem rxLine_outputs {l : Line} {s t : State} (h : rxLine l s = .next t) :
    t.encLine = s.encLine ∧ t.encIn = s.encIn ∧ t.rxIn = s.rxIn
      ∧ (t.frameReceived = s.frameReceived ∨ ∃ e, t.frameReceived = s.frameReceived ++ [e]) := by
  obtain ⟨ch, f, -, hx⟩ | ⟨c, hx⟩ := rxLine_cases l s
  · rw [hx] at h; cases h; exact ⟨rfl, rfl, rfl, .inr ⟨_, rfl⟩⟩
  · rw [hx] at h; cases h; exact ⟨rfl, rfl, rfl, .inl rfl⟩

/-- A receive move takes characters from the front and adds at most one event behind those pending (R62, R235). -/
theorem receiveMove_outputs {s t : State} (h : receiveMove s = .next t) :
    t.encLine = s.encLine ∧ t.encIn = s.encIn ∧ t.rxIn <:+ s.rxIn
      ∧ (t.frameReceived = s.frameReceived ∨ ∃ e, t.frameReceived = s.frameReceived ++ [e]) := by
  obtain ⟨-, hx⟩ | ⟨c, cs, -, hr, -, hx⟩ | ⟨cs, -, hr, hx⟩ := receiveMove_cases s
  · rw [hx] at h; cases h
    exact ⟨rfl, rfl, List.suffix_refl _, .inl rfl⟩
  · rw [hx] at h; cases h
    exact ⟨rfl, rfl, hr ▸ List.suffix_cons c cs, .inl rfl⟩
  · rw [hx] at h
    obtain ⟨hline, hreq, hin, hev⟩ := rxLine_outputs h
    exact ⟨hline, hreq, by rw [hin, hr]; exact List.suffix_cons _ cs, hev⟩

/-- An encode move takes the first waiting request and adds at most one line behind those pending (R63). -/
theorem encodeMove_outputs {s t : State} (h : encodeMove s = .next t) :
    t.frameReceived = s.frameReceived ∧ t.rxIn = s.rxIn ∧ t.encIn = s.encIn.tail
      ∧ t.rxbuf = s.rxbuf ∧ t.rxlen = s.rxlen
      ∧ (t.encLine = s.encLine ∨ ∃ l, t.encLine = s.encLine ++ [l]) := by
  obtain ⟨hq, hx⟩ | ⟨q, qs, hq, hx⟩ := encodeMove_cases s
  · rw [hx] at h; cases h
    exact ⟨rfl, rfl, by simp [hq], rfl, rfl, .inl rfl⟩
  · rw [hx] at h
    obtain ⟨l, -, hy⟩ | ⟨e, hy⟩ := encodeRequest_cases q (setEncIn qs s)
    · rw [hy] at h; cases h
      exact ⟨rfl, rfl, by simp [hq], rfl, rfl, .inr ⟨l, rfl⟩⟩
    · rw [hy] at h; cases h
      exact ⟨rfl, rfl, by simp [hq], rfl, rfl, .inl rfl⟩

/-- Settles O40: the two agents' moves append to their outputs, and the environment's two moves take from the front. -/
theorem outputsKeepTheirOrder : Obligations.OutputsKeepTheirOrder := by
  intro s t m ms hs h
  rw [step_cons hs] at h
  refine ⟨?_, ?_, ?_, ?_⟩
  · rintro rfl
    exact receiveMove_outputs (s := setSched ms s) h
  · rintro rfl
    exact encodeMove_outputs (s := setSched ms s) h
  · rintro rfl
    cases h
    exact ⟨rfl, rfl, rfl, rfl, rfl, rfl⟩
  · rintro rfl
    cases h
    exact ⟨rfl, rfl, rfl, rfl, rfl, rfl⟩

/-! ### The two agents are independent -/

/-- The state with the schedule `ms`, the receive side of `r` and the encoder side of `e`: the two agents share no field
(R64). -/
def joinSides (ms : List Move) (r e : State) : State :=
  { r with sched := ms, encIn := e.encIn, encLine := e.encLine, encErr := e.encErr }

/-- A receive move reads and writes the receive side alone. -/
theorem receiveMove_joinSides {r r' : State} (h : receiveMove r = .next r') (ms : List Move) (e : State) :
    receiveMove (joinSides ms r e) = .next (joinSides ms r' e) := by
  obtain ⟨hidle, hx⟩ | ⟨c, cs, hf, hr, hc, hx⟩ | ⟨cs, hf, hr, hx⟩ := receiveMove_cases r
  · rw [hx] at h; cases h
    exact receiveMove_of_idle (s := joinSides ms r e) hidle
  · rw [hx] at h; cases h
    exact (receiveMove_of_cons (s := joinSides ms r e) hf hr).trans (rxChar_other hc _)
  · rw [hx] at h
    calc receiveMove (joinSides ms r e)
        = rxLine r.rxbuf (joinSides ms (clearLine (setRxIn cs r)) e) :=
          (receiveMove_of_cons (s := joinSides ms r e) hf hr).trans (rxChar_lineTerm _)
      _ = .next (joinSides ms r' e) := rxLine_other_fields h _ _ _ _

/-- What a request does depends on the request alone: one outcome of ENC, recorded in any state. -/
theorem encodeRequest_outcome (q : Request) : ∃ o : EncOutcome, ∀ s, encodeRequest q s = finishEncode o s := by
  obtain ⟨p, hp, hi, -⟩ := selectInstr_row q
  refine ⟨encodeAs p.2 q.ch q.frame, fun s => ?_⟩
  rw [encodeRequest_of_ok (congrArg Except.ok hi), exec_frameRow hp, execFrame_encode]

/-- An encode move reads and writes the encoder side alone. -/
theorem encodeMove_joinSides {e e' : State} (h : encodeMove e = .next e') (ms : List Move) (r : State) :
    encodeMove (joinSides ms r e) = .next (joinSides ms r e') := by
  obtain ⟨hq, hx⟩ | ⟨q, qs, hq, hx⟩ := encodeMove_cases e
  · rw [hx] at h; cases h
    exact encodeMove_of_nil (s := joinSides ms r e) hq
  · rw [encodeMove_of_cons (s := joinSides ms r e) hq]
    obtain ⟨o, ho⟩ := encodeRequest_outcome q
    rw [hx, ho] at h
    rw [ho]
    cases o with
    | line l => cases h; rfl
    | error c => cases h; rfl

theorem step_receive_joinSides {r r' : State} (h : receiveMove r = .next r') (ms : List Move) (e : State) :
    step (joinSides (.receive :: ms) r e) = .next (joinSides ms r' e) := by
  rw [step_cons rfl]
  exact receiveMove_joinSides h ms e

theorem step_encode_joinSides {e e' : State} (h : encodeMove e = .next e') (ms : List Move) (r : State) :
    step (joinSides (.encode :: ms) r e) = .next (joinSides ms r e') := by
  rw [step_cons rfl]
  exact encodeMove_joinSides h ms r

/-- Settles O41: either order gives the receive side after the receive move beside the encoder side after the encode move. -/
theorem agentsAreIndependent : Obligations.AgentsAreIndependent := by
  intro s ms
  obtain ⟨r, hr⟩ := receiveMove_goesOn s
  obtain ⟨e, he⟩ := encodeMove_goesOn s
  calc runSteps 2 (joinSides (.receive :: .encode :: ms) s s)
      = .next (joinSides ms r e) := by
        rw [runSteps_succ_of_next (step_receive_joinSides hr _ _), runSteps_one, step_encode_joinSides he]
    _ = runSteps 2 (joinSides (.encode :: .receive :: ms) s s) := by
        rw [runSteps_succ_of_next (step_encode_joinSides he _ _), runSteps_one, step_receive_joinSides hr]

end Sys2Proof.Machine

/-! The encoding: the table of first letters and the letter map agree, decode and encode are inverse to each other, and what
the hex conversions, the length-code tables and the identifier field give. -/

namespace Sys2Proof.Machine

/-! ### The table of first letters -/

/-- The table's frame rows are the letter map's (R82, R97). -/
theorem frameOpRows_eq_map :
    frameOpRows = frameRows.map (fun p => ⟨0xFF#8, p.2.letter, fun l => p.1 (.decode l)⟩) := rfl

/-- The table's configuration rows are the seven configuration line types (R97, R212 to R218). -/
theorem configOpRows_eq_map : configOpRows = configRows.map (fun p => ⟨0xFF#8, p.2, p.1⟩) := rfl

theorem frameRow_mem_opTable {p : (FrameOp → Instr) × FrameRow} (hp : p ∈ frameRows) :
    (⟨0xFF#8, p.2.letter, fun l => p.1 (.decode l)⟩ : OpRow) ∈ opTable := by
  rw [opTable, frameOpRows_eq_map]
  exact List.mem_append_left _ (List.mem_map_of_mem hp)

theorem configRow_mem_opTable {p : (RxLine → Instr) × Byte} (hp : p ∈ configRows) :
    (⟨0xFF#8, p.2, p.1⟩ : OpRow) ∈ opTable := by
  rw [opTable, configOpRows_eq_map]
  exact List.mem_append_right _ (List.mem_map_of_mem hp)

theorem opTable_patterns : opTable.map OpRow.pattern = frameLetters ++ configRows.map Prod.snd := rfl

/-- The fifteen letters are distinct (R84). -/
theorem opTable_patterns_nodup : (opTable.map OpRow.pattern).Nodup := by decide

/-- No letter is a channel digit, so Dispatch never takes one for a digit (R191). -/
theorem pattern_not_digit : ∀ row ∈ opTable, ¬(0x30#8 ≤ row.pattern ∧ row.pattern ≤ 0x33#8) := by decide

/-- The mask of every row is full: a row matches its own letter and no other character (R97). -/
theorem row_matches (c : Byte) : ∀ row ∈ opTable, (c &&& row.mask == row.pattern) = (row.pattern == c) := by
  intro row hrow
  have hmask : row.mask = BitVec.allOnes 8 := by
    revert row; decide
  rw [hmask, BitVec.and_allOnes, BEq.comm]

/-- A row is found exactly for the letters of the table (R94). -/
theorem lookup_isSome_iff (c : Byte) : (lookup c).isSome = true ↔ c ∈ opTable.map OpRow.pattern := by
  rw [lookup, List.find?_isSome, List.mem_map]
  refine exists_congr fun row => and_congr_right fun hrow => ?_
  rw [row_matches c row hrow, beq_iff_eq]

/-- The letters are distinct, so at most one row matches a character. -/
theorem matching_rows_le_one (c : Byte) : (opTable.filter (fun r => c &&& r.mask == r.pattern)).length ≤ 1 := by
  calc (opTable.filter (fun r => c &&& r.mask == r.pattern)).length
      = (opTable.filter (fun r => r.pattern == c)).length := by rw [List.filter_congr (row_matches c)]
    _ = (opTable.map OpRow.pattern).count c := by
        rw [List.count_eq_countP, List.countP_map, List.countP_eq_length_filter]; rfl
    _ ≤ 1 := List.nodup_iff_count_le_one.1 opTable_patterns_nodup c

/-- Settles O5: a row matches its own letter only, and the fifteen letters are distinct. -/
theorem firstCharactersOfTheTable : Obligations.FirstCharactersOfTheTable := by
  intro c
  exact ⟨by rw [lookup_isSome_iff, opTable_patterns], matching_rows_le_one c⟩

/-- Settles O7: the eight rows of the map, one by one. -/
theorem letterMap : Obligations.LetterMap := by
  unfold Obligations.LetterMap
  exact ⟨rfl, by decide⟩

/-! ### Decode and encode -/

theorem encode_frameRow {p : (FrameOp → Instr) × FrameRow} (hp : p ∈ frameRows) (op : FrameOp) :
    encode (p.1 op) = frameWords p.2.letter op := by
  simp only [frameRows, List.mem_cons, List.not_mem_nil, or_false] at hp
  rcases hp with rfl | rfl | rfl | rfl | rfl | rfl | rfl | rfl <;> rfl

theorem encode_configRow {p : (RxLine → Instr) × Byte} (hp : p ∈ configRows) (l : RxLine) :
    encode (p.1 l) = .line (lineChars p.2 l) := by
  simp only [configRows, List.mem_cons, List.not_mem_nil, or_false] at hp
  rcases hp with rfl | rfl | rfl | rfl | rfl | rfl | rfl <;> rfl

/-- A line written with a letter of the table decodes to its row's instruction, with its own digit and rest. -/
theorem decodeLine_lineChars {row : OpRow} (hrow : row ∈ opTable) (l : RxLine) :
    decodeLine (lineChars row.pattern l) = .ok (row.build l) := by
  have hsplit := splitDigit_lineChars (pattern_not_digit row hrow) l
  rw [decodeLine_cons (congrArg Prod.snd hsplit), hsplit, lookup_pattern hrow]

/-- A frame that fits a row has the row's `ext` and `fd`, and of `brs` and `rtr` the one R83 consults; the other is 0 in the
row (R24, R83). -/
theorem flags_of_fitsRow {row : FrameRow} (hrow : row ∈ frameRows.map Prod.snd) {f : Frame}
    (hfits : f.fitsRow row.ext row.fd row.brs row.rtr = true) :
    f.ext = row.ext ∧ f.fd = row.fd ∧ (f.fd && f.brs) = row.brs ∧ (!f.fd && f.rtr) = row.rtr := by
  obtain ⟨hremote, hswitch⟩ := rows_conventional row hrow
  simp only [Frame.fitsRow, Bool.and_eq_true, beq_iff_eq] at hfits
  obtain ⟨⟨⟨hext, hfd⟩, hflag⟩, -⟩ := hfits
  refine ⟨hext, hfd, ?_⟩
  rw [hfd]
  cases h : row.fd with
  | false =>
    have hbrs : row.brs = false := Bool.eq_false_iff.2 fun hb => by simp [hswitch hb] at h
    simpa [h, hbrs] using hflag
  | true =>
    have hrtr : row.rtr = false := Bool.eq_false_iff.2 fun hr => by simp [hremote hr] at h
    simpa [h, hrtr] using hflag

/-- A request whose flags fit a row selects that row: the flags the request's letter consults determine the row (R83). -/
theorem selectInstr_of_fitsRow {p : (FrameOp → Instr) × FrameRow} (hp : p ∈ frameRows) (ch : ChanReq) {f : Frame}
    (hfits : f.fitsRow p.2.ext p.2.fd p.2.brs p.2.rtr = true) : selectInstr ⟨ch, f⟩ = p.1 (.encode ch f) := by
  obtain ⟨p', hp', hsel, hext, hfd, hbrs, hrtr⟩ := selectInstr_row ⟨ch, f⟩
  obtain ⟨hfext, hffd, hfbrs, hfrtr⟩ := flags_of_fitsRow (List.mem_map_of_mem hp) hfits
  have hrow : p'.2 = p.2 := rows_unique _ (List.mem_map_of_mem hp') _ (List.mem_map_of_mem hp) (hext.trans hfext)
    (hfd.trans hffd) (hbrs.trans hfbrs) (hrtr.trans hfrtr)
  have hnodup : (frameRows.map Prod.snd).Nodup := by decide
  rw [hsel, List.inj_on_of_nodup_map hnodup hp' hp hrow]

/-- Settles O1: a line's letter finds its row and its digit is split off again; a request's flags select its row. -/
theorem decodeInvertsEncode : Obligations.DecodeInvertsEncode := by
  intro i hwf
  obtain ⟨p, hp, op, rfl⟩ | ⟨p, hp, l, rfl⟩ := instr_rows i
  · rw [encode_frameRow hp]
    rw [wellFormed_frameRow hp] at hwf
    cases op with
    | encode ch f => exact congrArg Except.ok (selectInstr_of_fitsRow hp ch hwf)
    | decode l => exact decodeLine_lineChars (frameRow_mem_opTable hp) l
  · rw [encode_configRow hp]
    exact decodeLine_lineChars (configRow_mem_opTable hp) l

/-- The instruction a line decodes to is written as that line. -/
theorem encode_of_decodeLine {l : Line} {i : Instr} (h : decodeLine l = .ok i) : encode i = .line l := by
  obtain ⟨c, body, hs, ⟨p, hp, rfl, rfl⟩ | ⟨p, hp, rfl, rfl⟩⟩ := decodeLine_rows h
  · rw [encode_frameRow hp]
    exact congrArg Words.line (lineChars_splitDigit hs)
  · rw [encode_configRow hp]
    exact congrArg Words.line (lineChars_splitDigit hs)

/-- Whatever row a request selects, its operands are the request's. -/
theorem encode_selectInstr (q : Request) : encode (selectInstr q) = .request q := by
  obtain ⟨p, hp, hi, -⟩ := selectInstr_row q
  rw [hi, encode_frameRow hp]
  rfl

/-- Settles O2: a line is put together again from its parts, and a request is kept whole. -/
theorem encodeInvertsDecode : Obligations.EncodeInvertsDecode := by
  intro w i h
  cases w with
  | line l => exact encode_of_decodeLine h
  | request q =>
    obtain rfl : selectInstr q = i := Except.ok.inj h
    exact encode_selectInstr q

/-- Settles O4: the decoder computes each of the seven lines. -/
theorem writtenOutWordsDecode : Obligations.WrittenOutWordsDecode := by
  unfold Obligations.WrittenOutWordsDecode
  exact ⟨rfl, rfl, rfl, rfl, rfl, rfl, rfl⟩

/-! ### The letter of a request -/

/-- The letter R83 gives for flags: `b`, `d`, `r` or `t`, `fd` first, and its upper-case form for an extended identifier. -/
def letterOfFlags (ext fd brs rtr : Bool) : Byte :=
  let base : Byte := if fd then (if brs then 0x62#8 else 0x64#8) else (if rtr then 0x72#8 else 0x74#8)
  if ext then base - 0x20#8 else base

/-- The letter of every row is the one R83 gives for the row's flags. -/
theorem row_letter_eq : ∀ row ∈ frameRows.map Prod.snd,
    row.letter = letterOfFlags row.ext row.fd row.brs row.rtr := by decide

/-- R83 consults `brs` only when `fd` = 1 and `rtr` only when `fd` = 0. -/
theorem letterOfFlags_consulted (ext fd brs rtr : Bool) :
    letterOfFlags ext fd (fd && brs) (!fd && rtr) = letterOfFlags ext fd brs rtr := by
  cases fd <;> rfl

/-- Settles O6: the selected row carries the flags R83 consults, and its letter is the one of its flags. -/
theorem letterSelection : Obligations.LetterSelection := by
  intro q
  obtain ⟨p, hp, hi, hext, hfd, hbrs, hrtr⟩ := selectInstr_row q
  refine ⟨p, hp, congrArg Except.ok hi, ?_, hext⟩
  rw [row_letter_eq p.2 (List.mem_map_of_mem hp), hext, hfd, hbrs, hrtr, letterOfFlags_consulted]
  rfl

/-! ### Remainders that are no frames -/

/-- DECODE of an empty remainder, or of one that begins with no frame letter, is "not a frame" (R94, R151). -/
theorem decodeRemainder_of_no_letter (lower : Bool) {r : Line} (h : ∀ c, r.head? = some c → c ∉ frameLetters) :
    decodeRemainder lower r = .noFrame .notFrame := by
  cases r with
  | nil => rfl
  | cons c body => simp only [decodeRemainder, (frameRowOf_eq_none_iff c).2 (h c rfl)]

/-- Settles O34: such a remainder is dropped as "not a frame", and that drop does not count. -/
theorem otherFirstCharactersAreNoFrames : Obligations.OtherFirstCharactersAreNoFrames := by
  intro l s h
  rw [rxLine_eq, decodeRemainder_of_no_letter _ h, ← recordDrop_notFrame]
  rfl

/-! ### Hex digits -/

theorem hc_toNat (v : Nibble) : (hc v).toNat = if v.toNat ≤ 9 then 0x30 + v.toNat else 0x41 + v.toNat - 10 := by
  have hlt := v.isLt
  rw [hc, apply_ite BitVec.toNat]
  refine ite_congr rfl (fun h => ?_) (fun h => ?_)
  · simp only [BitVec.toNat_add, BitVec.toNat_setWidth, BitVec.toNat_ofNat]
    omega
  · simp only [BitVec.toNat_sub, BitVec.toNat_add, BitVec.toNat_setWidth, BitVec.toNat_ofNat]
    omega

/-- The value of a character that stands `c - k` places behind the digit of value `m`. -/
theorem setWidth_sub_add {c k : Byte} (m : Byte) (h : k ≤ c) :
    (c - k + m).setWidth 4 = BitVec.ofNat 4 (c.toNat - k.toNat + m.toNat) := by
  apply BitVec.eq_of_toNat_eq
  rw [BitVec.toNat_setWidth, BitVec.toNat_add, BitVec.toNat_sub_of_le h, BitVec.toNat_ofNat,
    Nat.mod_mod_of_dvd _ (by norm_num)]

theorem hv_eq (lower : Bool) (c : Byte) : hv lower c =
    if 0x30 ≤ c.toNat ∧ c.toNat ≤ 0x39 then some (BitVec.ofNat 4 (c.toNat - 0x30))
    else if 0x41 ≤ c.toNat ∧ c.toNat ≤ 0x46 then some (BitVec.ofNat 4 (c.toNat - 0x41 + 10))
    else if lower = true ∧ 0x61 ≤ c.toNat ∧ c.toNat ≤ 0x66 then some (BitVec.ofNat 4 (c.toNat - 0x61 + 10))
    else none := by
  unfold hv
  refine ite_congr rfl (fun h => ?_) fun _ => ite_congr rfl (fun h => ?_) fun _ => ?_
  · simpa using setWidth_sub_add (k := 0x30#8) 0#8 h.1
  · exact congrArg some (setWidth_sub_add (k := 0x41#8) 10#8 h.1)
  · cases lower with
    | false => simp
    | true =>
      refine ite_congr (by simp [BitVec.le_def]) (fun h => ?_) fun _ => rfl
      obtain ⟨-, hge, -⟩ := h
      exact congrArg some (setWidth_sub_add (k := 0x61#8) 10#8 hge)

/-- Settles O8: both conversions, in numbers. -/
theorem hexDigitConversions : Obligations.HexDigitConversions := ⟨hc_toNat, hv_eq⟩

/-! ### Length codes -/

/-- The length code of an accepted length, bucket by bucket (R89). -/
theorem l2c_eq {n : Nat} (hn : n ≤ 64) : l2c? n = some
    (if n ≤ 8 then BitVec.ofNat 4 n else if n ≤ 12 then 9#4 else if n ≤ 16 then 10#4
     else if n ≤ 20 then 11#4 else if n ≤ 24 then 12#4 else if n ≤ 32 then 13#4
     else if n ≤ 48 then 14#4 else 15#4) := by
  have hmax : n ≤ Config.maxFd := hn
  simp only [l2c?, hmax, if_true, apply_ite some]

theorem c2l_mono : ∀ c d : Nibble, c ≤ d → c2l c ≤ c2l d := by decide

/-- The boundary lengths are exactly the lengths of the table (R15, R90). -/
theorem mem_boundaryLengths_iff (n : Nat) : n ∈ boundaryLengths ↔ ∃ c, c2l c = n := by
  constructor
  · have key : ∀ b ∈ boundaryLengths, ∃ c, c2l c = b := by decide
    exact key n
  · rintro ⟨c, rfl⟩
    exact c2l_boundary c

/-- The code of a length is the least one whose length holds it (R91): the two tables determine each other. -/
theorem le_c2l_iff {n : Nat} {c : Nibble} (h : l2c? n = some c) (d : Nibble) : n ≤ c2l d ↔ c ≤ d := by
  have hn : n ≤ 64 := (l2c_isSome_iff n).1 (by simp [h])
  constructor
  · have key : ∀ m : Fin 65, ∀ c : Nibble, l2c? m.val = some c → ∀ d : Nibble, m.val ≤ c2l d → c ≤ d := by decide
    exact key ⟨n, by omega⟩ c h d
  · intro hcd
    exact (le_c2l h).trans (c2l_mono c d hcd)

/-- A length is the length of its code exactly when it is a boundary length. -/
theorem c2l_eq_iff_boundary {n : Nat} {c : Nibble} (h : l2c? n = some c) : c2l c = n ↔ n ∈ boundaryLengths := by
  rw [mem_boundaryLengths_iff]
  constructor
  · intro hc
    exact ⟨c, hc⟩
  · rintro ⟨d, rfl⟩
    obtain rfl : d = c := Option.some.inj ((l2c_c2l d).symm.trans h)
    rfl

/-- No boundary length lies between a length and the length of its code. -/
theorem c2l_le_boundary {n b : Nat} {c : Nibble} (h : l2c? n = some c) (hb : b ∈ boundaryLengths) (hnb : n ≤ b) :
    c2l c ≤ b := by
  obtain ⟨d, rfl⟩ := (mem_boundaryLengths_iff b).1 hb
  exact c2l_mono c d ((le_c2l_iff h d).1 hnb)

theorem l2c_mono {m n : Nat} {c d : Nibble} (hmn : m ≤ n) (hc : l2c? m = some c) (hd : l2c? n = some d) : c ≤ d :=
  (le_c2l_iff hc d).1 (hmn.trans (le_c2l hd))

/-- Settles O9: the two tables, and the laws that follow from the code of a length being the least that holds it. -/
theorem lengthCodeTables : Obligations.LengthCodeTables := by
  refine ⟨by decide, fun n => l2c_eq (by omega), l2c_c2l, ?_, c2l_mono, ?_⟩
  · intro n c h
    exact ⟨le_c2l h, c2l_eq_iff_boundary h, fun b hb => c2l_le_boundary h hb⟩
  · intro m n c d hmn
    exact l2c_mono hmn

/-! ### The identifier field -/

theorem idWidth_eq (row : FrameRow) : row.idWidth = if row.ext then 8 else 3 := rfl

/-- An identifier above the width's range has a field longer than the width: it is not cut (R87). -/
theorem lt_hexMin_length {id : BitVec 32} {w : Nat} (h : 16 ^ w ≤ id.toNat) : w < (hexMin id w).length := by
  rw [← Nat.not_le, hexMin_length_le_iff id (Nat.le_refl w)]
  omega

/-- Settles O10: the field's length is its width or the digits needed, and its digits stand for the identifier. -/
theorem identifierFieldOnEncode : Obligations.IdentifierFieldOnEncode := by
  refine ⟨fun p _ => idWidth_eq p.2, fun id w hw => ⟨?_, ?_, fun lower => hexNum_hexMin lower id w⟩,
    fun id => ⟨hexMin_length_ext id, fun hle => hexMin_length_eq id (Nat.lt_succ_of_le hle),
      fun hlt => ⟨lt_hexMin_length hlt, (hexMin_length_le id (by norm_num)).2⟩⟩⟩
  · rw [hexMin_length, significant_digits]
  · intro c hc
    obtain ⟨v, rfl⟩ := hexMin_upper hc
    exact isUpperHex_hc v

end Sys2Proof.Machine

/-! The encoder: what a request's outcome is and depends on, what holds of an emitted line, and what becomes of the lines
that are not read back as the frame that was sent. -/

namespace Sys2Proof.Machine

/-! ### The outcome of a request -/

/-- A request is encoded with the row its flags select (R83, R121). -/
theorem encodeRequest_eq (q : Request) : ∃ row ∈ frameRows.map Prod.snd,
    row.ext = q.frame.ext ∧ row.fd = q.frame.fd
    ∧ row.brs = (q.frame.fd && q.frame.brs) ∧ row.rtr = (!q.frame.fd && q.frame.rtr)
    ∧ ∀ s, encodeRequest q s = finishEncode (encodeAs row q.ch q.frame) s := by
  obtain ⟨p, hp, hi, hext, hfd, hbrs, hrtr⟩ := selectInstr_row q
  refine ⟨p.2, List.mem_map_of_mem hp, hext, hfd, hbrs, hrtr, fun s => ?_⟩
  rw [encodeRequest_of_ok (congrArg Except.ok hi), exec_frameRow hp, execFrame_encode]

theorem encodeAs_chanRange (row : FrameRow) {ch : ChanReq} (f : Frame) (hch : 3#4 < ch) :
    encodeAs row ch f = .error .chanRange := if_pos hch

theorem encodeAs_lenRange (row : FrameRow) {ch : ChanReq} {f : Frame} (hch : ch ≤ 3#4) (hlen : 64 < f.len) :
    encodeAs row ch f = .error .lenRange := by
  simp only [encodeAs, BitVec.not_lt.2 hch, (l2c_eq_none_iff _).2 hlen, if_false]

/-- The letter of the row a frame's flags select is the one R83 gives for them. -/
theorem letter_of_flags {row : FrameRow} (hrow : row ∈ frameRows.map Prod.snd) {f : Frame} (hext : row.ext = f.ext)
    (hfd : row.fd = f.fd) (hbrs : row.brs = (f.fd && f.brs)) (hrtr : row.rtr = (!f.fd && f.rtr)) :
    row.letter = letterOfFlags f.ext f.fd f.brs f.rtr := by
  rw [row_letter_eq row hrow, hext, hfd, hbrs, hrtr, letterOfFlags_consulted]

/-- Settles O15: the two refusals, and the line with the letter and width of the row the flags select. -/
theorem encodeProcedure : Obligations.EncodeProcedure := by
  intro q s
  obtain ⟨row, -, -, -, -, -, hreq⟩ := encodeRequest_eq q
  refine ⟨fun hch => ?_, fun hch hlen => ?_, fun hch hlen => ?_⟩
  · rw [hreq, encodeAs_chanRange row _ hch]; rfl
  · rw [hreq, encodeAs_lenRange row hch hlen]; rfl
  · obtain ⟨row, hrow, code, hcode, hext, hfd, hbrs, hrtr, hx⟩ := encodeRequest_accepted q s hch hlen
    rw [letter_of_flags hrow hext hfd hbrs hrtr, idWidth_eq, hext] at hx
    exact ⟨code, hcode, hx⟩

/-- Settles O16: each encode form on an accepted request emits the line of its own row. -/
theorem encodeFormsComplete : Obligations.EncodeFormsComplete :=
  fun _ hp _ _ s hch hlen => execEncode_accepted hp s hch hlen

/-! ### What a request's outcome depends on -/

/-- What a line shows of a frame: the identifier, the flags R83 consults, the length code, and the payload that is sent. -/
def shownParts (f : Frame) : BitVec 32 × (Bool × Bool × Bool × Bool) × Option Nibble × Line :=
  (f.id, (f.ext, f.fd, f.fd && f.brs, !f.fd && f.rtr), l2c? f.len, if f.rtr then [] else payloadChars f.data)

/-- The encode of a request depends on nothing of the frame that its line does not show. -/
theorem encodeRequest_of_shownParts_eq (ch : ChanReq) {f g : Frame} (h : shownParts f = shownParts g) (s : State) :
    encodeRequest ⟨ch, f⟩ s = encodeRequest ⟨ch, g⟩ s := by
  simp only [shownParts, Prod.mk.injEq] at h
  obtain ⟨hid, ⟨hext, hfd, hbrs, hrtr⟩, hcode, hpayload⟩ := h
  obtain ⟨row, hrow, hext₁, hfd₁, hbrs₁, hrtr₁, hf⟩ := encodeRequest_eq ⟨ch, f⟩
  obtain ⟨row', hrow', hext₂, hfd₂, hbrs₂, hrtr₂, hg⟩ := encodeRequest_eq ⟨ch, g⟩
  obtain rfl : row = row' := rows_unique row hrow row' hrow' (hext₁.trans (hext.trans hext₂.symm))
    (hfd₁.trans (hfd.trans hfd₂.symm)) (hbrs₁.trans (hbrs.trans hbrs₂.symm)) (hrtr₁.trans (hrtr.trans hrtr₂.symm))
  rw [hf, hg, encodeAs, encodeAs, hid, hcode, hpayload]

/-- Settles O20: each of the changes leaves the parts a line shows as they were. -/
theorem whatTheLineDoesNotShow : Obligations.WhatTheLineDoesNotShow := by
  intro ch f s
  refine ⟨fun d => ?_, fun hfd b => ?_, fun hfd hlen r => ?_, fun hrtr data hcode => ?_⟩
  · have hshown : shownParts { f with dlc := d } = shownParts f := rfl
    exact encodeRequest_of_shownParts_eq ch hshown s
  · exact encodeRequest_of_shownParts_eq ch (by simp [shownParts, hfd, Frame.len]) s
  · have hdata : f.data = [] := List.length_eq_zero_iff.1 hlen
    exact encodeRequest_of_shownParts_eq ch (by simp [shownParts, hfd, hdata, payloadChars, Frame.len]) s
  · exact encodeRequest_of_shownParts_eq ch (by simpa [shownParts, hrtr, Frame.len] using hcode) s

/-! ### Emitted lines -/

/-- An accepted request emits the line its row's encode gives. -/
theorem encodeRequest_emits (q : Request) (s : State) (hch : q.ch ≤ 3#4) (hlen : q.frame.len ≤ 64) :
    ∃ row ∈ frameRows.map Prod.snd, row.ext = q.frame.ext
      ∧ ∃ l, encodeAs row q.ch q.frame = .line l ∧ encodeRequest q s = .next (emitLine l s) := by
  obtain ⟨row, hrow, hext, -, -, -, hreq⟩ := encodeRequest_eq q
  obtain ⟨code, hcode⟩ := Option.isSome_iff_exists.1 ((l2c_isSome_iff q.frame.len).2 hlen)
  exact ⟨row, hrow, hext, _, encodeAs_of hch hcode, by rw [hreq, encodeAs_of hch hcode]; rfl⟩

/-- What R135 and R68 say of an emitted line's characters and length. -/
theorem emittedLine_properties {l : Line} (h : emittedLine l = true) :
    (∃ c ∈ frameLetters, l[1]? = some c) ∧ (∀ c ∈ l.drop 2, isUpperHex c = true) ∧ 6 ≤ l.length ∧ l.length ≤ 139 := by
  match l, h with
  | c :: letter :: rest, h =>
    simp only [emittedLine, Bool.and_eq_true, decide_eq_true_eq, List.all_eq_true] at h
    obtain ⟨⟨⟨⟨-, hletter⟩, hupper⟩, hmin⟩, hmax⟩ := h
    simp only [List.length_cons]
    exact ⟨⟨letter, hletter, rfl⟩, hupper, by omega, by omega⟩

/-- The length of an encoded line: digit, letter, identifier field, length code, and two characters a byte (R135). -/
theorem encodeAs_length {row : FrameRow} {ch : ChanReq} {f : Frame} {l : Line} (h : encodeAs row ch f = .line l) :
    l.length = 2 + max row.idWidth ((Nat.size f.id.toNat + 3) / 4) + 1 + (if f.rtr then 0 else 2 * f.len) := by
  obtain ⟨-, code, -, rfl⟩ := encodeAs_eq_line h
  rw [List.length_append, List.length_append, List.length_append, hexMin_length, significant_digits,
    apply_ite List.length, payloadChars_length]
  rfl

/-- An encoded line begins with its channel's digit, which Dispatch takes off again (R190). -/
theorem encodeAs_dispatch {row : FrameRow} {ch : ChanReq} {f : Frame} {l : Line} (h : encodeAs row ch f = .line l) :
    l[0]? = some (0x30#8 + ch.setWidth 8) ∧ dispatch l = (ch.setWidth 2, l.drop 1) := by
  obtain ⟨hch, code, -, rfl⟩ := encodeAs_eq_line h
  exact ⟨rfl, by simp only [dispatch, List.cons_append, splitDigit_request hch]; rfl⟩

/-- Settles O18: the line of the selected row, whose width is the request's. -/
theorem emittedLineProperties : Obligations.EmittedLineProperties := by
  intro q s hch hlen
  obtain ⟨row, hrow, hext, l, hl, hx⟩ := encodeRequest_emits q s hch hlen
  obtain ⟨hletter, hupper, hmin, hmax⟩ := emittedLine_properties (emittedLine_of_encodeAs hrow hl)
  obtain ⟨hdigit, hdispatch⟩ := encodeAs_dispatch hl
  have hlength := encodeAs_length hl
  rw [idWidth_eq, hext] at hlength
  exact ⟨l, hx, hdigit, hletter, hupper, hlength, hmin, hmax, hdispatch⟩

/-! ### Lines that are not read back as what was sent -/

/-- The first `k` of the digits of a number stand for the number without its other digits. -/
theorem foldl_take (us : List Nibble) (k : Nat) :
    (us.take k).foldl (fun a v => a * 16 + v.toNat) 0
      = us.foldl (fun a v => a * 16 + v.toNat) 0 / 16 ^ (us.length - k) := by
  obtain ⟨hle, hlt⟩ := foldl_bounds (us.drop k) ((us.take k).foldl (fun a v => a * 16 + v.toNat) 0)
  rw [← List.foldl_append, List.take_append_drop, List.length_drop] at hle hlt
  exact (Nat.div_eq_of_lt_le hle hlt).symm

/-- The first `k` characters of an identifier field, read as a field, lose the other digits of the identifier (R275). -/
theorem hexNum_take_hexMin (lower : Bool) (id : BitVec 32) (w k : Nat) :
    hexNum? lower 0 ((hexMin id w).take k) = some (id.toNat / 16 ^ ((hexMin id w).length - k)) := by
  obtain ⟨us, hus, hval⟩ := hexMin_digits id w
  rw [hus, ← List.map_take, hexNum_map_hc, foldl_take, hval, List.length_map]

/-- A frame read behind an identifier field wider than the row's takes its identifier from the field's first characters. -/
theorem decodeAs_id_of_wide_field {row : FrameRow} {lower : Bool} {c : Byte} {id : BitVec 32} {w : Nat} {r : Line}
    {f : Frame} (hw : row.idWidth ≤ (hexMin id w).length)
    (h : decodeAs row lower (c :: (hexMin id w ++ r)) = .frame f) :
    f.id.toNat = id.toNat / 16 ^ ((hexMin id w).length - row.idWidth) := by
  obtain ⟨n, -, code, data, -, hn, -, -, rfl, -⟩ := decodeAs_eq_frame h
  rw [List.drop_succ_cons, List.drop_zero, List.take_append_of_le_length hw, hexNum_take_hexMin] at hn
  obtain rfl := Option.some.inj hn
  exact (BitVec.toNat_ofNat _ _).trans (Nat.mod_eq_of_lt ((Nat.div_le_self _ _).trans_lt id.isLt))

/-- What a decode's outcome adds to the pending events is its frame, if it is one. -/
theorem mem_new_events {ch : Chan} {o : DecOutcome} {s t : State} (h : finishDecode ch o s = .next t) {e : Event}
    (he : e ∈ t.frameReceived.drop s.frameReceived.length) : o = .frame e.frame := by
  cases o with
  | frame f =>
    cases h
    obtain rfl : e = ⟨ch, f⟩ := by simpa using he
    rfl
  | noFrame c => cases h; simp at he

/-- An accepted request emits a line, and that line, received, is decoded with the row of its letter: the fields of the
line are the remainder DEC reads (R195). -/
theorem encodeRequest_received (q : Request) (s s' : State) (hch : q.ch ≤ 3#4) (hlen : q.frame.len ≤ 64) :
    ∃ row ∈ frameRows.map Prod.snd, ∃ code, l2c? q.frame.len = some code
      ∧ row.ext = q.frame.ext ∧ row.fd = q.frame.fd
      ∧ row.brs = (q.frame.fd && q.frame.brs) ∧ row.rtr = (!q.frame.fd && q.frame.rtr)
      ∧ ∃ l, encodeRequest q s = .next (emitLine l s)
        ∧ rxLine l s' = finishDecode (q.ch.setWidth 2) (decodeAs row Config.acceptLowerHex
            (row.letter :: (hexMin q.frame.id row.idWidth ++ [hc code]
              ++ (if q.frame.rtr then [] else payloadChars q.frame.data)))) s' := by
  obtain ⟨row, hrow, code, hcode, hext, hfd, hbrs, hrtr, hx⟩ := encodeRequest_accepted q s hch hlen
  exact ⟨row, hrow, code, hcode, hext, hfd, hbrs, hrtr, _, hx, rxLine_encoded hrow hch _ s'⟩

/-- Settles O31: DEC reads the first three digits of the identifier field as the identifier, and three digits cannot stand
for an identifier above 0xFFF. -/
theorem overRangeIdentifierIsNotReadBack : Obligations.OverRangeIdentifierIsNotReadBack := by
  intro q s s' hch hlen hstd hid
  obtain ⟨row, -, code, -, hext, -, -, -, l, hx, hrx⟩ := encodeRequest_received q s s' hch hlen
  have hw : row.idWidth = 3 := by rw [idWidth_eq, hext, hstd]; rfl
  have hwide : 3 < (hexMin q.frame.id 3).length := lt_hexMin_length (BitVec.lt_def.1 hid)
  have hdigits : (hexMin q.frame.id 3).length = (Nat.size q.frame.id.toNat + 3) / 4 := by
    rw [hexMin_length, significant_digits] at hwide ⊢
    omega
  obtain ⟨t, ht⟩ := rxLine_goesOn l s'
  refine ⟨l, hx, t, ht, fun e he => ?_⟩
  have hframe := mem_new_events (hrx.symm.trans ht) he
  rw [hw, List.append_assoc] at hframe
  have hread : e.frame.id.toNat = q.frame.id.toNat / 16 ^ ((hexMin q.frame.id 3).length - 3) := by
    simpa only [hw] using decodeAs_id_of_wide_field (by omega) hframe
  refine ⟨fun heq => ?_, hdigits ▸ hread⟩
  have hless : q.frame.id.toNat / 16 ^ ((hexMin q.frame.id 3).length - 3) < q.frame.id.toNat :=
    Nat.div_lt_self (Nat.zero_lt_of_lt (BitVec.lt_def.1 hid)) (Nat.one_lt_pow (by omega) (by norm_num))
  rw [← hread, heq] at hless
  exact lt_irrefl _ hless

/-- A payload that is announced but not sent is truncated (R151). -/
theorem decodePayload_truncated {row : FrameRow} {lower : Bool} {s : Line} {id len : Nat} (hrtr : row.rtr = false)
    (hpos : 0 < len) (hs : s.length < 2 + row.idWidth + 2 * len) :
    decodePayload row lower s id len = .noFrame .plTrunc := by
  simp [decodePayload, hrtr, hpos.ne', memRead_eq_none.2 hs]

/-- A payload of length 0 is not read (R151). -/
theorem decodePayload_zero (row : FrameRow) (lower : Bool) (s : Line) (id : Nat) :
    decodePayload row lower s id 0 = .frame (row.frame id [] 0) := by
  simp [decodePayload]

/-- An identifier that is extended, or at most 0xFFF, fits the field of its row (R87). -/
theorem id_lt_of_fits {row : FrameRow} {f : Frame} (hext : row.ext = f.ext) (h : f.ext = true ∨ f.id ≤ 0xFFF#32) :
    f.id.toNat < 16 ^ row.idWidth := by
  obtain hwide | hle := h
  · rw [idWidth_eq, hext, if_pos hwide]
    exact f.id.isLt
  · calc f.id.toNat < 16 ^ 3 := Nat.lt_succ_of_le (BitVec.le_def.1 hle)
      _ ≤ 16 ^ row.idWidth := Nat.pow_le_pow_right (by norm_num) (idWidth_le row).1

/-- Settles O32: the line has a data row's letter and no payload, so DEC delivers an empty data frame when the length code
is 0 and misses the payload when it is not. -/
theorem fdRemoteIsNotReadBack : Obligations.FdRemoteIsNotReadBack := by
  intro q s s' hch hlen hfd hrtr hid
  obtain ⟨row, -, code, hcode, hext, hrfd, hrbrs, hrrtr, l, hx, hrx⟩ := encodeRequest_received q s s' hch hlen
  have hdata : row.rtr = false := by rw [hrrtr, hfd]; rfl
  have hfits := id_lt_of_fits hext hid
  rw [decodeAs_encoded_header rfl hfits, hrtr] at hrx
  refine ⟨l, hx, fun hzero => ?_, fun hpos => ?_⟩
  · rw [(c2l_eq_zero hcode).2 hzero, decodePayload_zero] at hrx
    have hempty : q.frame.data = [] := List.length_eq_zero_iff.1 hzero
    simp [hrx, finishDecode, deliver, FrameRow.frame, hext, hrfd, hrbrs, hdata, hfd, hempty]
  · have hcpos : 0 < c2l code := Nat.pos_of_ne_zero fun h => hpos.ne' ((c2l_eq_zero hcode).1 h)
    rw [decodePayload_truncated hdata hcpos (by simp [hexMin_length_eq _ hfits]; omega)] at hrx
    rw [hrx, finishDecode, recordDrop, countDrop_other (by simp)]
    rfl

end Sys2Proof.Machine

/-! The decoder: what a received frame line delivers and what that depends on, and the round trips with the encoder. -/

namespace Sys2Proof.Machine

/-! ### What a decode that delivers a frame has read -/

/-- A remainder that decodes to a frame begins with the letter of a row, and is decoded with that row (R94, R151). -/
theorem decodeRemainder_eq_frame {lower : Bool} {r : Line} {f : Frame} (h : decodeRemainder lower r = .frame f) :
    ∃ row ∈ frameRows.map Prod.snd, ∃ body, r = row.letter :: body ∧ decodeAs row lower r = .frame f := by
  cases r with
  | nil => cases h
  | cons c body =>
    simp only [decodeRemainder] at h
    cases hrow : frameRowOf c with
    | none => simp [hrow] at h
    | some row =>
      obtain rfl : row.letter = c := by simpa using List.find?_some hrow
      exact ⟨row, List.mem_of_find?_eq_some hrow, body, rfl, by simpa only [hrow] using h⟩

/-- The frame a row delivers has the row's flags (R151). -/
theorem decodeAs_flags {row : FrameRow} {lower : Bool} {s : Line} {f : Frame} (h : decodeAs row lower s = .frame f) :
    f.ext = row.ext ∧ f.fd = row.fd ∧ f.brs = row.brs ∧ f.rtr = row.rtr := by
  obtain ⟨id, c, code, data, -, -, -, -, rfl, -⟩ := decodeAs_eq_frame h
  exact ⟨rfl, rfl, rfl, rfl⟩

/-- A frame a row delivers has the table value of its code character as `dlc`, which fits the 7 bits (R22, R90, R151). -/
theorem decodeAs_dlc {row : FrameRow} {lower : Bool} {s : Line} {f : Frame} (h : decodeAs row lower s = .frame f) :
    ∃ code, hexAt lower s (1 + row.idWidth) = some code ∧ f.dlc.toNat = c2l code := by
  obtain ⟨id, c, code, data, -, -, hc, hcode, rfl, -⟩ := decodeAs_eq_frame h
  have hfits : c2l code < 2 ^ 7 := (c2l_le code).trans_lt (by norm_num)
  exact ⟨code, by rw [hexAt, hc]; exact hcode, (BitVec.toNat_ofNat _ _).trans (Nat.mod_eq_of_lt hfits)⟩

/-- What R167 says of the fields of a frame Decode produces. -/
theorem producedFrame_properties {f : Frame} (h : producedFrame f = true) :
    f.len ∈ boundaryLengths ∧ (f.rtr = true → f.len = 0 ∧ f.fd = false ∧ f.brs = false)
      ∧ (f.brs = true → f.fd = true) ∧ (f.ext = false → f.id ≤ 0xFFF#32) := by
  simp only [producedFrame, Bool.and_eq_true, decide_eq_true_eq] at h
  obtain ⟨⟨⟨⟨hlen, -⟩, hrtr⟩, hbrs⟩, hid⟩ := h
  refine ⟨hlen, fun hr => ?_, fun hb => ?_, fun he => ?_⟩
  · simpa [hr, and_assoc] using hrtr
  · simpa [hb] using hbrs
  · simpa [he] using hid

/-- Settles O25: the line's remainder begins with the letter of the row it is decoded with. -/
theorem producedFrameProperties : Obligations.ProducedFrameProperties := by
  intro l s t e ht he
  rw [rxLine_eq] at ht
  obtain ⟨row, hrow, body, hr, hf⟩ := decodeRemainder_eq_frame (mem_new_events ht he)
  obtain ⟨code, hcode, hdlc⟩ := decodeAs_dlc hf
  obtain ⟨hext, hfd, hbrs, hrtr⟩ := decodeAs_flags hf
  obtain ⟨hlen, hremote, hswitch, hid⟩ := producedFrame_properties (decodeAs_produced hrow hf)
  exact ⟨row.letter, body, row, code, hr, hrow, rfl, hr ▸ hcode, hext, hrtr, hfd, hbrs, hlen, hdlc, hremote, hswitch, hid⟩

/-! ### What a decode does not depend on -/

/-- Settles O26: DEC delivers the same frame on the same channel for the longer line. -/
theorem trailingCharactersIgnored : Obligations.TrailingCharactersIgnored := by
  intro p hp d body trailing s t ht h0
  obtain ⟨f, hf, -, hx⟩ | ⟨c, -, -, hx⟩ := execDecode_cases hp ⟨d, body⟩ s
  · have hlonger := decodeAs_append (t := trailing) hf
    rw [exec_frameRow hp, execFrame_decode]
    exact (congrArg (finishDecode _ · s) hlonger).trans (hx.symm.trans ht)
  · rw [hx] at ht
    cases ht
    exact absurd (Option.some.inj h0) (dropCause_code_ne_zero c)

/-- What is read behind the first character of a line is among the characters behind it. -/
theorem mem_tail_of_memRead {s cs : Line} {a n : Nat} (h : memRead s (a + 1) n = some cs) {c : Byte} (hc : c ∈ cs) :
    c ∈ s.tail := by
  obtain ⟨-, rfl⟩ := memRead_eq_some h
  rw [← List.drop_one]
  rw [Nat.add_comm, ← List.drop_drop] at hc
  exact List.mem_of_mem_drop (List.mem_of_mem_take hc)

section Parameter

variable {l₁ l₂ : Bool} {s : Line} (h : ∀ c ∈ s.tail, hv l₁ c = hv l₂ c)
include h

/-- The payload branch reads the same under two parameter values that agree on the characters behind the letter. -/
theorem decodePayload_congr (row : FrameRow) (id len : Nat) :
    decodePayload row l₁ s id len = decodePayload row l₂ s id len := by
  unfold decodePayload
  split
  · rfl
  · cases hread : memRead s (2 + row.idWidth) (2 * len) with
    | none => rfl
    | some cs =>
      rw [show 2 + row.idWidth = (1 + row.idWidth) + 1 by omega] at hread
      simp only [hexBytes_congr fun c hc => h c (mem_tail_of_memRead hread hc)]

/-- The length code reads the same under two parameter values that agree on the characters behind the letter. -/
theorem decodeCode_congr (row : FrameRow) (id : Nat) : decodeCode row l₁ s id = decodeCode row l₂ s id := by
  unfold decodeCode
  cases hc : s[1 + row.idWidth]? with
  | none => rfl
  | some c =>
    rw [Nat.add_comm, ← List.getElem?_tail] at hc
    simp only [h c (List.mem_of_getElem? hc), decodePayload_congr h]

/-- A remainder decodes the same under two parameter values that agree on the characters behind the letter. -/
theorem decodeAs_congr (row : FrameRow) : decodeAs row l₁ s = decodeAs row l₂ s := by
  unfold decodeAs
  cases hread : memRead s 1 row.idWidth with
  | none => rfl
  | some cs =>
    simp only [hexNum_congr fun c hc => h c (mem_tail_of_memRead hread hc), decodeCode_congr h]

end Parameter

/-- What is a frame without lower-case digits is the same frame with them allowed (R161, R283). -/
theorem decodeAs_upper {row : FrameRow} {s : Line} {f : Frame} (h : decodeAs row false s = .frame f) (lower : Bool) :
    decodeAs row lower s = .frame f := by
  obtain ⟨id, c, code, data, -, hid, hc, hcode, rfl, hp⟩ := decodeAs_eq_frame h
  refine decodeAs_frame_of (hexNum_upper hid lower) hc (hv_upper hcode lower) (hp.imp_right ?_)
  rintro ⟨hrtr, hle, hdata⟩
  exact ⟨hrtr, hle, hexBytes_upper hdata⟩

/-- Settles O27: the parameter plays a part for lower-case digits only, and there only lets them pass. -/
theorem lowerHexParameter : Obligations.LowerHexParameter := by
  intro row _ r
  refine ⟨fun h => decodeAs_congr (fun c hc => hv_not_lower ?_ true) row, fun f hf => decodeAs_upper hf true⟩
  simpa [isLowerHex] using h c hc

/-! ### The frame a line stands for -/

/-- Indices that hold digits lie within the line. -/
theorem le_length_of_hexAt {lower : Bool} {s : Line} {v : Nat → Nibble} {a b : Nat}
    (h : ∀ q, a ≤ q → q < b → hexAt lower s q = some (v q)) (hab : a < b) : b ≤ s.length := by
  obtain ⟨c, -, hc, -⟩ := hexAt_ne_none.1 (by rw [h (b - 1) (by omega) (by omega)]; exact Option.some_ne_none _)
  have := (List.getElem?_eq_some_iff.1 hc).1
  omega

/-- A payload field whose indices hold digits is complete, and its bytes are those of the digits (R92). -/
theorem payload_read {lower : Bool} {s : Line} {v : Nat → Nibble} {a n : Nat} (ha : a ≤ s.length)
    (h : ∀ q, a ≤ q → q < a + 2 * n → hexAt lower s q = some (v q)) :
    a + 2 * n ≤ s.length ∧ hexBytes? lower ((s.drop a).take (2 * n))
      = some ((List.range n).map fun i => BitVec.ofNat 8 ((v (a + 2 * i)).toNat * 16 + (v (a + 2 * i + 1)).toNat)) := by
  refine ⟨?_, hexBytes_values (v := fun k => v (a + k)) n _ (slice_values h)⟩
  obtain rfl | hn := Nat.eq_zero_or_pos n
  · exact ha
  · exact le_length_of_hexAt h (by omega)

/-- DEC with a row, on a remainder with a digit at every position it reads (R88, R92, R151). -/
theorem decodeAs_of_digits {row : FrameRow} {lower : Bool} {s : Line} {v : Nat → Nibble}
    (hheader : ∀ q, 1 ≤ q → q < 2 + row.idWidth → hexAt lower s q = some (v q))
    (hpayload : row.rtr = false → ∀ q, 2 + row.idWidth ≤ q → q < 2 + row.idWidth + 2 * c2l (v (1 + row.idWidth)) →
      hexAt lower s q = some (v q)) :
    decodeAs row lower s = .frame (row.frame
      (∑ k ∈ Finset.range row.idWidth, (v (1 + k)).toNat * 16 ^ (row.idWidth - 1 - k))
      (if row.rtr then [] else (List.range (c2l (v (1 + row.idWidth)))).map fun i => BitVec.ofNat 8
        ((v (2 + row.idWidth + 2 * i)).toNat * 16 + (v (2 + row.idWidth + 2 * i + 1)).toNat))
      (c2l (v (1 + row.idWidth)))) := by
  have hid := hexNum_of_values (slice_values (a := 1) (n := row.idWidth)
    fun q h1 h2 => hheader q h1 (by omega)) 0
  rw [foldl_eq_sum] at hid
  have hcode := hheader (1 + row.idWidth) (by omega) (by omega)
  obtain ⟨c, hc, hval⟩ := Option.bind_eq_some_iff.1 hcode
  refine decodeAs_frame_of hid hc hval ?_
  cases hrtr : row.rtr with
  | true => exact .inl ⟨.inl rfl, rfl⟩
  | false => exact .inr ⟨rfl, payload_read (le_length_of_hexAt hheader (by omega)) (hpayload hrtr)⟩

/-- Settles O23: the decode form delivers what DEC reads with its own row, on the line's channel. -/
theorem decodeDeliversTheFrame : Obligations.DecodeDeliversTheFrame := by
  intro p hp l s v r w len hheader hpayload
  have hw : p.2.idWidth = w := idWidth_eq p.2
  have hf : decodeAs p.2 Config.acceptLowerHex r = _ := decodeAs_of_digits (v := v)
    (fun q h1 h2 => hheader q h1 (by omega)) (by simpa only [hw] using hpayload)
  rw [exec_frameRow hp, execFrame_decode, hf, hw, Nat.add_comm 2 w]
  simp only [Nat.add_right_comm (w + 2) _ 1]
  rfl

/-! ### Encode, then decode -/

/-- A remote line has no payload (R92, R151). -/
theorem decodePayload_remote {row : FrameRow} (hrtr : row.rtr = true) (lower : Bool) (s : Line) (id len : Nat) :
    decodePayload row lower s id len = .frame (row.frame id [] len) := by
  simp [decodePayload, hrtr]

/-- The payload characters behind a complete header read back as their bytes (R92, R151). -/
theorem decodePayload_append_payloadChars {row : FrameRow} (hrtr : row.rtr = false) {header : Line}
    (hheader : header.length = 2 + row.idWidth) (lower : Bool) (id : Nat) (data : List Byte) :
    decodePayload row lower (header ++ payloadChars data) id data.length = .frame (row.frame id data data.length) := by
  have hread : memRead (header ++ payloadChars data) (2 + row.idWidth) (2 * data.length) = some (payloadChars data) := by
    rw [memRead_of_le (by simp [payloadChars_length, hheader]), ← hheader, List.drop_left, ← payloadChars_length,
      List.take_length]
  obtain rfl | hne := eq_or_ne data []
  · exact decodePayload_zero row lower _ id
  · simp [decodePayload, hrtr, hne, hread, hexBytes_payloadChars]

/-- The remainder of the line a row forms for a frame with a given length code (R121). -/
def encodedRemainder (row : FrameRow) (f : Frame) (code : Nibble) : Line :=
  row.letter :: (hexMin f.id row.idWidth ++ [hc code] ++ (if f.rtr then [] else payloadChars f.data))

section Encoded

variable {row : FrameRow} {f : Frame} {code : Nibble} (hid : f.id.toNat < 16 ^ row.idWidth) (hrtr : row.rtr = f.rtr)
  (hcode : l2c? f.len = some code)
include hid hrtr hcode

/-- A remote frame, or one of boundary length, is read back, with the table value of its code as `dlc` (R163, R168). -/
theorem decodeAs_encodedRemainder_frame (lower : Bool) (h : f.rtr = true ∨ f.len ∈ boundaryLengths) :
    decodeAs row lower (encodedRemainder row f code)
      = .frame (row.frame f.id.toNat (if f.rtr then [] else f.data) (c2l code)) := by
  rw [encodedRemainder, decodeAs_encoded_header rfl hid]
  cases hr : f.rtr with
  | true => exact decodePayload_remote (hrtr.trans hr) lower _ _ _
  | false =>
    have hlen : c2l code = f.data.length := (c2l_eq_iff_boundary hcode).2 (h.resolve_left (by simp [hr]))
    have hheader : (row.letter :: (hexMin f.id row.idWidth ++ [hc code])).length = 2 + row.idWidth := by
      simp only [List.length_cons, List.length_append, List.length_nil, hexMin_length_eq f.id hid]
      omega
    rw [hlen]
    exact decodePayload_append_payloadChars (hrtr.trans hr) hheader lower _ f.data

/-- A data frame whose length is no boundary length has fewer payload characters than its code announces (R168, R170). -/
theorem decodeAs_encodedRemainder_truncated (lower : Bool) (h : ¬(f.rtr = true ∨ f.len ∈ boundaryLengths)) :
    decodeAs row lower (encodedRemainder row f code) = .noFrame .plTrunc := by
  obtain ⟨hdata, hlen⟩ := not_or.1 h
  rw [Bool.not_eq_true] at hdata
  have hshort : f.data.length < c2l code :=
    lt_of_le_of_ne (le_c2l hcode) fun heq => hlen ((c2l_eq_iff_boundary hcode).1 heq.symm)
  rw [encodedRemainder, decodeAs_encoded_header rfl hid]
  refine decodePayload_truncated (hrtr.trans hdata) (by omega) ?_
  simp only [hdata, Bool.false_eq_true, if_false, List.length_cons, List.length_append, List.length_nil,
    hexMin_length_eq f.id hid, payloadChars_length]
  omega

end Encoded

/-- The frame a row delivers for the identifier of a frame with the row's flags differs from it in payload and `dlc` only. -/
theorem row_frame_eq {row : FrameRow} {f : Frame} (hext : row.ext = f.ext) (hfd : row.fd = f.fd) (hbrs : row.brs = f.brs)
    (hrtr : row.rtr = f.rtr) (data : List Byte) (n : Nat) :
    row.frame f.id.toNat data n = { f with data := data, dlc := BitVec.ofNat 7 n } := by
  simp [FrameRow.frame, hext, hfd, hbrs, hrtr]

/-- Under the conventions R83 consults every flag that is set: `brs` comes with `fd`, and `rtr` without it (R24). -/
theorem consulted_flags_eq {f : Frame} (hswitch : f.brs = true → f.fd = true) (hremote : ¬(f.fd = true ∧ f.rtr = true)) :
    (f.fd && f.brs) = f.brs ∧ (!f.fd && f.rtr) = f.rtr := by
  cases hfd : f.fd with
  | true => exact ⟨rfl, by simpa [hfd] using hremote⟩
  | false => exact ⟨by simpa [hfd] using hswitch, rfl⟩

/-- Settles O29: under the premises the selected row has all flags of the frame, and DEC reads with that row what the row's
encode has written. -/
theorem encodeThenDecode : Obligations.EncodeThenDecode := by
  intro q s s' hch hlen
  obtain ⟨row, hrow, code, hcode, hext, hfd, hbrs, hrtr, hx⟩ := encodeRequest_accepted q s hch hlen
  obtain ⟨-, hdispatch⟩ := encodeAs_dispatch (encodeAs_of (row := row) hch hcode)
  have hrx : rxLine _ s' = finishDecode (q.ch.setWidth 2)
      (decodeAs row Config.acceptLowerHex (encodedRemainder row q.frame code)) s' := rxLine_encoded hrow hch _ s'
  refine ⟨_, code, hx, hcode, congrArg Prod.fst hdispatch, fun hid hswitch hremote => ?_⟩
  have hfits := id_lt_of_fits hext hid
  obtain ⟨hconsultedBrs, hconsultedRtr⟩ := consulted_flags_eq hswitch hremote
  rw [hconsultedBrs] at hbrs
  rw [hconsultedRtr] at hrtr
  refine ⟨fun h => hrx.trans ?_, fun h => hrx.trans ?_⟩
  · rw [decodeAs_encodedRemainder_frame hfits hrtr hcode _ h, row_frame_eq hext hfd hbrs hrtr]
    rfl
  · rw [decodeAs_encodedRemainder_truncated hfits hrtr hcode _ h, finishDecode, recordDrop, countDrop_other (by simp)]
    rfl

/-! ### Decode, then encode -/

/-- The identifier field of the number a field of at most eight digits stands for is that field in upper case (R169). -/
theorem hexMin_of_hexNum {lower : Bool} {cs : Line} {n : Nat} (h : hexNum? lower 0 cs = some n) (hl : cs.length ≤ 8) :
    hexMin (BitVec.ofNat 32 n) cs.length = cs.map upperHex := by
  obtain ⟨vs, hvs⟩ := values_of_hexNum h
  have hlen : vs.length = cs.length := by simpa using (congrArg List.length hvs).symm
  rw [hexNum_of_values hvs] at h
  rw [← Option.some.inj h, hexMin_of_digits hlen hl, map_hc_eq_upperHex hvs]

/-- The identifier field Encode writes for a decoded frame is the one Decode has read, in upper case. -/
theorem hexMin_decodeAs {row : FrameRow} {lower : Bool} {c : Byte} {body : Line} {f : Frame}
    (h : decodeAs row lower (c :: body) = .frame f) : hexMin f.id row.idWidth = (body.take row.idWidth).map upperHex := by
  obtain ⟨id, -, code, data, hlt, hid, -, -, rfl, -⟩ := decodeAs_eq_frame h
  rw [List.drop_succ_cons, List.drop_zero] at hid
  have hlen : (body.take row.idWidth).length = row.idWidth := by
    rw [List.length_cons] at hlt
    exact List.length_take_of_le (by omega)
  have hfield := hexMin_of_hexNum hid (hlen.trans_le (idWidth_le row).2)
  rwa [hlen] at hfield

/-- The length code and the payload Decode has read for a data frame, which has as many bytes as the code says. -/
theorem decodeAs_eq_data_frame {row : FrameRow} (hrtr : row.rtr = false) {lower : Bool} {s : Line} {f : Frame}
    (h : decodeAs row lower s = .frame f) :
    ∃ c code, s[1 + row.idWidth]? = some c ∧ hv lower c = some code ∧ f.len = c2l code
      ∧ hexBytes? lower ((s.drop (2 + row.idWidth)).take (2 * f.len)) = some f.data := by
  obtain ⟨id, c, code, data, -, -, hc, hcode, rfl, hp⟩ := decodeAs_eq_frame h
  obtain ⟨hz, rfl⟩ | ⟨-, hle, hdata⟩ := hp
  · have hzero : c2l code = 0 := hz.resolve_left (by simp [hrtr])
    exact ⟨c, code, hc, hcode, hzero.symm, rfl⟩
  · have hlen : data.length = c2l code := by
      have := hexBytes_length hdata
      simp only [List.length_take, List.length_drop] at this
      omega
    exact ⟨c, code, hc, hcode, hlen, by simpa [FrameRow.frame, Frame.len, hlen] using hdata⟩

/-- The length code and the payload Encode writes for a decoded data frame are those Decode has read, in upper case. -/
theorem code_payload_decodeAs {row : FrameRow} (hrtr : row.rtr = false) {lower : Bool} {c : Byte} {body : Line}
    {f : Frame} (h : decodeAs row lower (c :: body) = .frame f) {code : Nibble} (hcode : l2c? f.len = some code) :
    hc code :: payloadChars f.data = ((body.drop row.idWidth).take (1 + 2 * f.len)).map upperHex := by
  obtain ⟨x, code', hx, hval, hlen, hdata⟩ := decodeAs_eq_data_frame hrtr h
  obtain rfl : code' = code := Option.some.inj ((l2c_c2l code').symm.trans (hlen ▸ hcode))
  rw [Nat.add_comm, List.getElem?_cons_succ] at hx
  obtain ⟨hlt, rfl⟩ := List.getElem?_eq_some_iff.1 hx
  rw [show 2 + row.idWidth = (row.idWidth + 1) + 1 by omega, List.drop_succ_cons] at hdata
  rw [List.drop_eq_getElem_cons hlt, Nat.add_comm 1, List.take_succ_cons, List.map_cons, hc_eq_upperHex hval,
    payloadChars_of_hexBytes hdata]

/-- What Encode writes behind the identifier of a decoded frame: what Decode has read there, in upper case, or the code 0
of an empty frame where the frame is remote and only its `dlc` keeps the code (R169). -/
theorem code_payload_of_decoded {row : FrameRow} {lower : Bool} {c : Byte} {body : Line} {f : Frame}
    (h : decodeAs row lower (c :: body) = .frame f) (hremote : f.rtr = true → f.len = 0) {code : Nibble}
    (hcode : l2c? f.len = some code) :
    [hc code] ++ (if f.rtr then [] else payloadChars f.data)
      = if f.rtr then [0x30#8] else ((body.drop row.idWidth).take (1 + 2 * f.len)).map upperHex := by
  cases hr : f.rtr with
  | true =>
    have hzero : l2c? f.len = some 0#4 := by rw [hremote hr]; rfl
    rw [Option.some.inj (hcode.symm.trans hzero)]
    rfl
  | false =>
    obtain ⟨-, -, -, hrtr⟩ := decodeAs_flags h
    exact code_payload_decodeAs (hrtr.symm.trans hr) h hcode

/-- A frame with all flags of a row is encoded with that row (R83). -/
theorem encodeRequest_of_flags {row : FrameRow} (hrow : row ∈ frameRows.map Prod.snd) {f : Frame} (hext : f.ext = row.ext)
    (hfd : f.fd = row.fd) (hbrs : f.brs = row.brs) (hrtr : f.rtr = row.rtr) (ch : ChanReq) (s : State) :
    encodeRequest ⟨ch, f⟩ s = finishEncode (encodeAs row ch f) s := by
  obtain ⟨hremote, hswitch⟩ := rows_conventional row hrow
  obtain ⟨hbrs', hrtr'⟩ := consulted_flags_eq (f := f) (by rwa [hbrs, hfd]) (by
    rintro ⟨hf, hr⟩
    obtain ⟨hnofd, -⟩ := hremote (hrtr.symm.trans hr)
    exact Bool.false_ne_true (hnofd.symm.trans (hfd.symm.trans hf)))
  obtain ⟨row', hrow', hext₂, hfd₂, hbrs₂, hrtr₂, hreq⟩ := encodeRequest_eq ⟨ch, f⟩
  obtain rfl : row' = row := rows_unique row' hrow' row hrow (hext₂.trans hext) (hfd₂.trans hfd)
    (hbrs₂.trans (hbrs'.trans hbrs)) (hrtr₂.trans (hrtr'.trans hrtr))
  exact hreq s

/-- Settles O30: Encode selects the row Decode has used, and writes each field as Decode has read it; the code of a remote
frame is that of its length 0. -/
theorem decodeThenEncode : Obligations.DecodeThenEncode := by
  intro c body f ch s h hch w
  obtain ⟨row, hrow, rest, hletter, hf⟩ := decodeRemainder_eq_frame h
  obtain ⟨rfl, rfl⟩ := List.cons.inj hletter
  obtain ⟨hext, hfd, hbrs, hrtr⟩ := decodeAs_flags hf
  obtain ⟨hlen, hremote, -, -⟩ := producedFrame_properties (decodeAs_produced hrow hf)
  obtain ⟨code, hcode⟩ : ∃ code, l2c? f.len = some code := by
    obtain ⟨code, hcode⟩ := (mem_boundaryLengths_iff _).1 hlen
    exact ⟨code, hcode ▸ l2c_c2l code⟩
  have hw : row.idWidth = w := by rw [idWidth_eq, ← hext]
  rw [encodeRequest_of_flags hrow hext hfd hbrs hrtr, encodeAs_of hch hcode, List.append_assoc,
    code_payload_of_decoded hf (fun hr => (hremote hr).1) hcode, hexMin_decodeAs hf, hw]
  rfl

end Sys2Proof.Machine

/-! The dispatcher and the receive pipeline: the channel a line is routed to, what processing a complete line comes to, and
the channel on which a sent line comes back. -/

namespace Sys2Proof.Machine

/-! ### The channel digit -/

/-- The characters `0` to `3` are the digits of the four channels (R93). -/
theorem mem_channelDigits_iff (c : Byte) : c ∈ channelDigits ↔ ∃ ch : Chan, c = digitChar ch := by
  revert c; decide

/-- A channel is its digit's offset from the character `0` (R190). -/
theorem channel_of_digitChar (ch : Chan) : BitVec.ofNat 2 ((digitChar ch).toNat - 0x30) = ch := by
  revert ch; decide

/-- A channel digit names the channel and is removed (R190). -/
@[simp] theorem dispatch_digitChar (ch : Chan) (l : Line) : dispatch (digitChar ch :: l) = (ch, l) := by
  simp [dispatch]

/-- A line that begins with no channel digit goes to channel 0 as it is (R194). -/
theorem dispatch_of_no_digit {l : Line} (h : ∀ c, l.head? = some c → c ∉ channelDigits) : dispatch l = (0#2, l) := by
  obtain ⟨hsplit, -⟩ | ⟨ch, rest, rfl, -⟩ := splitDigit_cases l
  · simp [dispatch, hsplit]
  · exact absurd ((mem_channelDigits_iff _).2 ⟨ch, rfl⟩) (h _ rfl)

/-- Settles O12: the empty line, a channel digit, and any other first character. -/
theorem dispatchRule : Obligations.DispatchRule := by
  intro l
  cases l with
  | nil => rfl
  | cons c rest =>
    by_cases hc : c ∈ channelDigits
    · obtain ⟨ch, rfl⟩ := (mem_channelDigits_iff c).1 hc
      simp [hc, channel_of_digitChar]
    · simpa [hc] using dispatch_of_no_digit (l := c :: rest) (by simpa using hc)

/-! ### The receive pipeline -/

/-- A line is processed by its channel and its remainder alone (R195). -/
theorem rxLine_of_dispatch_eq {l l' : Line} (h : dispatch l = dispatch l') (s : State) : rxLine l s = rxLine l' s := by
  rw [rxLine_eq, rxLine_eq, h]

/-- Settles O14: Dispatch gives both lines channel 0 and the same remainder. -/
theorem defaultChannelIsZero : Obligations.DefaultChannelIsZero := by
  intro l s h
  have hd : dispatch l = (0#2, l) := dispatch_of_no_digit h
  have hzero : dispatch (0x30#8 :: l) = (0#2, l) := dispatch_digitChar 0#2 l
  exact ⟨congrArg Prod.fst hd, rxLine_of_dispatch_eq (hzero.trans hd.symm) s⟩

/-- Settles O24: the two outcomes of Decode, the drop with its count. -/
theorem receivePipelineProcedure : Obligations.ReceivePipelineProcedure := by
  intro l s
  rw [rxLine_eq]
  cases decodeRemainder Config.acceptLowerHex (dispatch l).2 with
  | frame f => rfl
  | noFrame c => simp only [finishDecode, recordDrop, countDrop_eq, and_comm]

/-- A line of which Dispatch leaves nothing is dropped as "not a frame" (R193). -/
theorem rxLine_of_empty_remainder {l : Line} (h : (dispatch l).2 = []) (s : State) :
    rxLine l s = .next { s with decCause := some 1#3 } :=
  otherFirstCharactersAreNoFrames l s (by simp [h])

/-- Settles O13: in both cases Dispatch leaves the empty remainder. -/
theorem emptyRemainderIsNoFrame : Obligations.EmptyRemainderIsNoFrame :=
  ⟨rfl, dispatch_digitChar 2#2 [], fun s ch => ⟨rxLine_of_empty_remainder rfl s, rxLine_of_empty_remainder (by simp) s⟩⟩

/-! ### The channel of a line that comes back -/

/-- What a complete line adds to the pending events is reported on the channel Dispatch gives it (R195). -/
theorem new_event_channel {l : Line} {s t : State} (h : rxLine l s = .next t) {e : Event}
    (he : e ∈ t.frameReceived.drop s.frameReceived.length) : e.ch = (dispatch l).1 := by
  rw [rxLine_eq] at h
  cases hd : decodeRemainder Config.acceptLowerHex (dispatch l).2 with
  | frame f =>
    rw [hd] at h; cases h
    obtain rfl : e = ⟨(dispatch l).1, f⟩ := by simpa using he
    rfl
  | noFrame c => rw [hd] at h; cases h; simp at he

/-- Settles O19: Dispatch takes the emitted digit off again, which leaves the letter and gives the channel of any event. -/
theorem lineComesBackOnItsChannel : Obligations.LineComesBackOnItsChannel := by
  intro q s s' hch hlen
  obtain ⟨row, hrow, -, l, hl, hx⟩ := encodeRequest_emits q s hch hlen
  obtain ⟨-, hdispatch⟩ := encodeAs_dispatch hl
  obtain ⟨⟨c, hc, hletter⟩, -⟩ := emittedLine_properties (emittedLine_of_encodeAs hrow hl)
  obtain ⟨t, ht⟩ := rxLine_goesOn l s'
  refine ⟨l, hx, hdispatch, ⟨c, hc, by rwa [List.head?_drop]⟩, t, ht, fun e he => ?_⟩
  rw [new_event_channel ht he, hdispatch]

end Sys2Proof.Machine

/-! The configuration lines: none of the seven is a frame, as an instruction and as a complete line. -/

namespace Sys2Proof.Machine

/-- A configuration instruction changes nothing but the cause, which is "not a frame" (R211 to R218). -/
theorem exec_configRow_notFrame {p : (RxLine → Instr) × Byte} (hp : p ∈ configRows) (l : RxLine) (s : State) :
    exec (p.1 l) s = .next { s with decCause := some 1#3 } := by
  rw [exec_configRow hp, recordDrop_notFrame]

/-- The characters of a configuration line, with or without a channel digit, are processed as that line's instruction. -/
theorem rxLine_configRow {p : (RxLine → Instr) × Byte} (hp : p ∈ configRows) (l : RxLine) (s : State) :
    rxLine (lineChars p.2 l) s = exec (p.1 l) s :=
  rxLine_of_ok (decodeLine_lineChars (configRow_mem_opTable hp) l) s

/-- Settles O33: the complete lines are the configuration line's characters without a digit and with one, so all three
outcomes are the instruction's. -/
theorem configurationLinesAreNoFrames : Obligations.ConfigurationLinesAreNoFrames := by
  intro p hp l s
  have hline (digit : Option Chan) :
      rxLine (lineChars p.2 ⟨digit, l.body⟩) s = .next { s with decCause := some 1#3 } :=
    (rxLine_configRow hp _ s).trans (exec_configRow_notFrame hp _ s)
  exact ⟨exec_configRow_notFrame hp l s, hline none, fun ch => hline (some ch)⟩

end Sys2Proof.Machine

/-! The exceptions: the requests ENC refuses, the cause a dropped frame line reports, and the steps that hold the block. -/

namespace Sys2Proof.Machine

/-! ### Refused requests -/

/-- Settles O17: ENC checks the channel, then the length, and a request that passes both emits its line. -/
theorem encodeRefusals : Obligations.EncodeRefusals := by
  intro p hp ch f s
  refine ⟨fun hch => ?_, fun hch hlen => ?_, fun hch hlen => ?_⟩
  · rw [exec_frameRow hp, execFrame_encode, encodeAs_chanRange p.2 f hch]; rfl
  · rw [exec_frameRow hp, execFrame_encode, encodeAs_lenRange p.2 hch hlen]; rfl
  · obtain ⟨code, -, hx⟩ := execEncode_accepted hp s hch hlen
    exact ⟨_, hx⟩

/-! ### The cause of a drop: DEC's checks in their order (R151, R237) -/

section Checks

variable {row : FrameRow} {lower : Bool} {s : Line}

theorem decodeAs_idTrunc (h : s.length < 1 + row.idWidth) : decodeAs row lower s = .noFrame .idTrunc := by
  simp only [decodeAs, memRead_eq_none.2 h]

theorem decodeAs_idHex (hlen : 1 + row.idWidth ≤ s.length)
    (h : ∃ q, 1 ≤ q ∧ q ≤ row.idWidth ∧ hexAt lower s q = none) : decodeAs row lower s = .noFrame .idHex := by
  obtain ⟨q, h1, hq, hnone⟩ := h
  have hid : hexNum? lower 0 ((s.drop 1).take row.idWidth) = none :=
    (hexNum_eq_none_iff lower _ 0).2 ((slice_invalid_iff hlen).2 ⟨q, h1, by omega, hnone⟩)
  simp only [decodeAs, memRead_of_le hlen, hid]

/-- Once every identifier position holds a digit, the length code decides. -/
theorem decodeAs_of_identifier (hid : ∀ q, 1 ≤ q → q ≤ row.idWidth → hexAt lower s q ≠ none) :
    ∃ id, decodeAs row lower s = decodeCode row lower s id := by
  obtain ⟨hlen, id, hnum⟩ := identifier_read (Nat.one_le_of_lt (idWidth_le row).1) hid
  exact ⟨id, by simp only [decodeAs, memRead_of_le hlen, hnum]⟩

theorem decodeCode_lcTrunc (id : Nat) (h : s.length ≤ 1 + row.idWidth) :
    decodeCode row lower s id = .noFrame .lcTrunc := by
  simp only [decodeCode, List.getElem?_eq_none h]

theorem decodeCode_lcHex (id : Nat) (hlen : 1 + row.idWidth < s.length) (h : hexAt lower s (1 + row.idWidth) = none) :
    decodeCode row lower s id = .noFrame .lcHex := by
  have hc := List.getElem?_eq_getElem hlen
  simp only [hexAt, hc, Option.bind_some] at h
  simp only [decodeCode, hc, h]

/-- Once the length code is a digit, the payload decides. -/
theorem decodeCode_of_digit (id : Nat) {code : Nibble} (h : hexAt lower s (1 + row.idWidth) = some code) :
    1 + row.idWidth < s.length ∧ decodeCode row lower s id = decodePayload row lower s id (c2l code) := by
  obtain ⟨c, hc, hval⟩ := Option.bind_eq_some_iff.1 h
  exact ⟨(List.getElem?_eq_some_iff.1 hc).1, by simp only [decodeCode, hc, hval]⟩

theorem decodePayload_plHex (hrtr : row.rtr = false) (id : Nat) {len : Nat}
    (hlen : 2 + row.idWidth + 2 * len ≤ s.length)
    (h : ∃ q, 2 + row.idWidth ≤ q ∧ q < 2 + row.idWidth + 2 * len ∧ hexAt lower s q = none) :
    decodePayload row lower s id len = .noFrame .plHex := by
  have hpos : len ≠ 0 := by
    rintro rfl
    obtain ⟨q, hge, hlt, -⟩ := h
    omega
  have hdata : hexBytes? lower ((s.drop (2 + row.idWidth)).take (2 * len)) = none :=
    (hexBytes_eq_none_iff lower len _ (by simp only [List.length_take, List.length_drop]; omega)).2
      ((slice_invalid_iff hlen).2 h)
  simp [decodePayload, hrtr, hpos, memRead_of_le hlen, hdata]

end Checks

/-- What a decode form that drops its line does: the cause, and one more on the counter where it exists (R195, R238). -/
theorem execDecode_dropped {p : (FrameOp → Instr) × FrameRow} (hp : p ∈ frameRows) {l : RxLine} {c : DropCause}
    (s : State) (h : decodeAs p.2 Config.acceptLowerHex (p.2.letter :: l.body) = .noFrame c) :
    exec (p.1 (.decode l)) s = .next { s with
      decCause := some c.code
      dropcnt := if Config.hasDropCounter then s.dropcnt + 1#32 else s.dropcnt } := by
  have hc : c ≠ .notFrame := fun he => decodeAs_ne_notFrame _ _ _ (he ▸ h)
  rw [exec_frameRow hp, execFrame_decode, h, ← countDrop_other hc]
  rfl

/-- Settles O22: DEC's checks one after another, each reached when those before it have passed. -/
theorem decodeReportsFirstCause : Obligations.DecodeReportsFirstCause := by
  intro p hp l s r w dropped digit
  have hw : p.2.idWidth = w := idWidth_eq p.2
  have hdrop {c : DropCause} (h : decodeAs p.2 Config.acceptLowerHex r = .noFrame c) :
      exec (p.1 (.decode l)) s = dropped c.code := execDecode_dropped hp s h
  rw [← hw]
  refine ⟨fun hlen => hdrop (decodeAs_idTrunc hlen), fun hlen hbad => hdrop (decodeAs_idHex hlen hbad),
    fun hid hlen => ?_, fun hid hlen hbad => ?_, fun code hid hcode hrtr => ?_⟩
  · obtain ⟨id, hread⟩ := decodeAs_of_identifier hid
    exact hdrop (hread.trans (decodeCode_lcTrunc id hlen.le))
  · obtain ⟨id, hread⟩ := decodeAs_of_identifier hid
    exact hdrop (hread.trans (decodeCode_lcHex id (by omega) hbad))
  · obtain ⟨id, hread⟩ := decodeAs_of_identifier hid
    obtain ⟨hcodeIn, hpayload⟩ := decodeCode_of_digit id hcode
    rw [hpayload] at hread
    exact ⟨fun hlen => hdrop (hread.trans (decodePayload_truncated hrtr (by omega) hlen)),
      fun hlen hbad => hdrop (hread.trans (decodePayload_plHex hrtr id hlen hbad))⟩

/-! ### Steps that hold the block -/

/-- Settles O39: such a receive move only withdraws the cause reported before. -/
theorem pendingEventHoldsReception : Obligations.PendingEventHoldsReception := by
  intro s ms hs hf
  have hstep : step s = .next (noCause (setSched ms s)) := by
    rw [step_cons hs]
    exact receiveMove_of_idle (.inl hf)
  exact ⟨_, hstep, rfl, rfl, rfl, rfl, rfl, rfl, rfl⟩

/-- Settles O50: an empty schedule gives no move to make. -/
theorem idleStepHoldsTheState : Obligations.IdleStepHoldsTheState := fun _ => step_nil

end Sys2Proof.Machine

/-! The reset move: one equation for the state it leads to, whose fields are read off by the laws of `applyReset`. -/

namespace Sys2Proof.Machine

/-- A reset move applies the reset operation to the state whose schedule has moved on (R270). -/
theorem step_reset {s : State} {ms : List Move} (hs : s.sched = .reset :: ms) :
    step s = .next (applyReset (setSched ms s)) := by
  rw [step_cons hs]
  rfl

/-- Settles O43: the block's fields are those of the reset state, and the inputs still to come are untouched. -/
theorem resetOperation : Obligations.ResetOperation := by
  intro s ms hs
  refine ⟨applyReset (setSched ms s), step_reset hs, ?_⟩
  simp

end Sys2Proof.Machine
